-- ==== Sys2Proof/Word.lean ====
section
/-! DEFINITION. The word types of the block (00_scope.md R10, R12): bytes, 16-bit and 32-bit unsigned words. -/

namespace Sys2Proof

/-- `u8`: one byte of the wire (R12). -/
abbrev Byte := BitVec 8

/-- `u16`: a protocol address (`ADDR_W`) or a control register's value (`REG_W`) (R10, R12). -/
abbrev Word16 := BitVec 16

/-- `u32`: a memory word (`MEM_W`) (R10, R12). -/
abbrev Word32 := BitVec 32

end Sys2Proof
end

