-- ==== Sys2Proof/Config.lean ====
section
/-! DEFINITION. The implementation parameters of 00_scope.md R10, as plain data, and the one instance of them that
the model's reset state uses (`EX` of 95_test_vectors.md; DESIGN CHOICE, log entry 2). Every OPEN parameter is a field
of `Params`, which the state carries and no step changes (log entry 1): a statement over every state is a statement
over every parameter set. -/

namespace Sys2Proof

/-- `CTRL_BOUNDARY`: the lowest control-register address (R10, R50). -/
def ctrlBoundary : Nat := 0xF000

/-- The two pages of a region, `PAGES` = 2 (R10, R25). -/
inductive Page where
  | A
  | B
  deriving DecidableEq, Repr

/-- The page override of R14. -/
inductive Override where
  /-- `Current`: use the current page selector. -/
  | current
  /-- `ForceA`. -/
  | forceA
  /-- `ForceB`. -/
  | forceB
  deriving DecidableEq, Repr

/-- The kind of a memory region (R10). -/
inductive RegionKind where
  | data
  | program
  deriving DecidableEq, Repr

/-- One entry of `REGIONS` (R10): the window `[base, base + size)` of the memory space (20_memory.md R53). -/
structure Region where
  name : String
  kind : RegionKind
  base : Nat
  size : Nat
  deriving DecidableEq, Repr

/-- A control register's access mode (41_register_bank.md R140). -/
inductive RegMode where
  /-- read-write -/
  | rw
  /-- read-only -/
  | ro
  /-- write-with-side-effect -/
  | rwse
  deriving DecidableEq, Repr

/-- A control register's side-effect tag (R140). -/
inductive SideEffectTag where
  | pageSelect
  | backupDomain
  deriving DecidableEq, Repr

/-- One entry of `REG_TABLE` (R140). -/
structure RegEntry where
  addr : Word16
  reset : Word16
  mode : RegMode
  synth : Option Word16
  tag : Option SideEffectTag
  deriving DecidableEq, Repr

/-- The two values of `PAGE_ON_RESET` (R10, 70_reset_and_hazards.md R223). -/
inductive PageOnReset where
  | fromRegisterReset
  | unchanged
  deriving DecidableEq, Repr

/-- The words of memory that are not 0, each under the number of its place (Machine/Operands.lean `Place.key`),
in rising order of number. A place that is not listed holds 0 (log entry 4). -/
abbrev Memory := List (Nat × Word32)

/-- The parameters of R10. `CHIP_ID < 2^7`, `DEFAULT_OUT < 2^8` and `PAGE_BIT < 16` (R11 item 5) hold by type. -/
structure Params where
  /-- `REGIONS` -/
  regions : List Region
  /-- `CHIP_ID`, compared with bits [7:1] of the chip-address byte -/
  chipId : BitVec 7
  /-- `DEFAULT_OUT`, the reply outside a read data phase -/
  defaultOut : Byte
  /-- `REG_TABLE` -/
  regTable : List RegEntry
  /-- `PAGE_REG` -/
  pageReg : Word16
  /-- `PAGE_BIT` -/
  pageBit : Fin 16
  /-- `PAGE_ON_RESET` -/
  pageOnReset : PageOnReset
  /-- `TRIG_A` -/
  trigA : Word16
  /-- `TRIG_B` -/
  trigB : Word16
  /-- `STAGE_A` -/
  stageA : Word16
  /-- `STAGE_B` -/
  stageB : Word16
  /-- `PTR_A` -/
  ptrA : Word16
  /-- `PTR_B` -/
  ptrB : Word16
  /-- `SAFELOAD_PTR_SHARED` -/
  safeloadPtrShared : Bool
  /-- `MEM_INIT`, the draw of every memory word at construction (92_eei_decisions.md D14), as plain data -/
  memInit : Memory
  deriving DecidableEq, Repr

/-- The example configuration `EX` of 95_test_vectors.md (D37): the spec's own synthetic parameter set. None of its
values is a fact about the hardware. -/
def Config.ex : Params where
  regions :=
    [⟨"DM0", .data, 0x0000, 0x100⟩, ⟨"DM1", .data, 0x1000, 0x100⟩, ⟨"PM", .program, 0x2000, 0x100⟩]
  chipId := 0x00
  defaultOut := 0xFF
  regTable :=
    [⟨0xF000, 0x0000, .rw, none, none⟩,
     ⟨0xF001, 0x0000, .rwse, none, some .pageSelect⟩,
     ⟨0xF002, 0x0000, .ro, some 0x0001, none⟩,
     ⟨0xF003, 0xA5A5, .ro, none, none⟩,
     ⟨0xF004, 0x0000, .rwse, none, some .backupDomain⟩,
     ⟨0xFFFF, 0x1234, .rw, none, none⟩]
  pageReg := 0xF001
  pageBit := 0
  pageOnReset := .fromRegisterReset
  trigA := 0x1006
  trigB := 0x100E
  stageA := 0x1000
  stageB := 0x1008
  ptrA := 0x1005
  ptrB := 0x100D
  safeloadPtrShared := false
  memInit := []

/-- The parameter set of the machine's reset state: `EX` (DESIGN CHOICE, log entry 2). -/
def Config.params : Params := Config.ex

end Sys2Proof
end

