-- ==== Sys2Proof/Syntax.lean ====
section
/-! DEFINITION. The host events the block takes (00_scope.md R8, 30_encoding.md R89), the context in which a byte is
read (R89), and the instructions: one constructor for each row of the opcode table. -/

namespace Sys2Proof

/-- `T.state` (10_state.md R21). `idle` is the state conceptually called `ChipAddress`. -/
inductive DecoderState where
  | idle
  | subAddressHigh
  | subAddressLow
  | data0
  | data1
  | data2
  | data3
  deriving DecidableEq, Repr

/-- `T.dir` (R22). -/
inductive Direction where
  | write
  | read
  deriving DecidableEq, Repr

/-- The class of a protocol address (20_memory.md R51). -/
inductive AddrClass where
  | ctrl
  | mem
  deriving DecidableEq, Repr

/-- The answer of the sink of a diagnostic export (43_host_interfaces.md R187, D31): the export's data was written, or
writing it failed with the underlying I/O message. -/
inductive SinkAnswer where
  | ok
  | err (message : String)
  deriving DecidableEq, Repr

/-- The six kinds of input event (R8, R205). The sink's answer is a parameter that comes with the export's request. -/
inductive Event where
  /-- `transmit(b)` -/
  | transmit (b : Byte)
  /-- selection asserted -/
  | selAssert
  /-- selection deasserted -/
  | selDeassert
  /-- reset asserted (active edge) -/
  | reset
  /-- `read_memory_block(start, count, page)` -/
  | bulkRead (start : Word16) (count : Nat) (page : Page) (sink : SinkAnswer)
  /-- register export -/
  | regExport (sink : SinkAnswer)
  deriving DecidableEq, Repr

/-- The triple that selects a transmit rule (R89): `T.state`, `T.dir` and `Class(T.addr)`. -/
structure Context where
  state : DecoderState
  dir : Direction
  cls : AddrClass
  deriving DecidableEq, Repr

/-- The instructions: the rows of spec/opcode_table.json, in its order. A byte instruction carries its incoming byte
`b`, the operand the rules R101 to R116 name; the reads carry it too, and ignore it (R85). -/
inductive Instr where
  /-- `CA_WR` (R101) -/
  | caWr (b : Byte)
  /-- `CA_RD` (R102) -/
  | caRd (b : Byte)
  /-- `SA_HI` (R103) -/
  | saHi (b : Byte)
  /-- `SA_LO` (R104) -/
  | saLo (b : Byte)
  /-- `WR16_D0` (R105) -/
  | wr16D0 (b : Byte)
  /-- `WR16_D1` (R106) -/
  | wr16D1 (b : Byte)
  /-- `RD16_D0` (R107) -/
  | rd16D0 (b : Byte)
  /-- `RD16_D1` (R108) -/
  | rd16D1 (b : Byte)
  /-- `WR32_D0` (R109) -/
  | wr32D0 (b : Byte)
  /-- `WR32_D1` (R110) -/
  | wr32D1 (b : Byte)
  /-- `WR32_D2` (R111) -/
  | wr32D2 (b : Byte)
  /-- `WR32_D3` (R112) -/
  | wr32D3 (b : Byte)
  /-- `RD32_D0` (R113) -/
  | rd32D0 (b : Byte)
  /-- `RD32_D1` (R114) -/
  | rd32D1 (b : Byte)
  /-- `RD32_D2` (R115) -/
  | rd32D2 (b : Byte)
  /-- `RD32_D3` (R116) -/
  | rd32D3 (b : Byte)
  /-- `SEL_ASSERT` (R180) -/
  | selAssert
  /-- `SEL_DEASSERT` (R181) -/
  | selDeassert
  /-- `RESET` (R221) -/
  | reset
  /-- `BULK_READ` (R184) -/
  | bulkRead (start : Word16) (count : Nat) (page : Page) (sink : SinkAnswer)
  /-- `REG_EXPORT` (R186) -/
  | regExport (sink : SinkAnswer)
  deriving DecidableEq, Repr

end Sys2Proof
end

