-- ==== Sys2Proof/WellFormed.lean ====
section
/-! DEFINITION. When an instruction is well formed, and in which contexts of 30_encoding.md R89 each one is read. The
well-formedness of a PARAMETER SET (00_scope.md R11) is in Machine/Configuration.lean. -/

namespace Sys2Proof

/-- R101 and R102 give the operand `b` of `CA_WR` bit 0 = 0 and that of `CA_RD` bit 0 = 1. Every other operand may have
every value (R88: no byte value is illegal or reserved in any state). -/
def Instr.wf : Instr → Bool
  | .caWr b => !b.getLsbD 0
  | .caRd b => b.getLsbD 0
  | .saHi _ => true
  | .saLo _ => true
  | .wr16D0 _ => true
  | .wr16D1 _ => true
  | .rd16D0 _ => true
  | .rd16D1 _ => true
  | .wr32D0 _ => true
  | .wr32D1 _ => true
  | .wr32D2 _ => true
  | .wr32D3 _ => true
  | .rd32D0 _ => true
  | .rd32D1 _ => true
  | .rd32D2 _ => true
  | .rd32D3 _ => true
  | .selAssert => true
  | .selDeassert => true
  | .reset => true
  | .bulkRead _ _ _ _ => true
  | .regExport _ => true

/-- The context column of R89's map: the triples in which an instruction is read. The non-byte events are read in every
one. -/
def Instr.readIn (c : Context) : Instr → Bool
  | .caWr _ => c.state == .idle
  | .caRd _ => c.state == .idle
  | .saHi _ => c.state == .subAddressHigh
  | .saLo _ => c.state == .subAddressLow
  | .wr16D0 _ => c == ⟨.data0, .write, .ctrl⟩
  | .wr16D1 _ => c == ⟨.data1, .write, .ctrl⟩
  | .rd16D0 _ => c == ⟨.data0, .read, .ctrl⟩
  | .rd16D1 _ => c == ⟨.data1, .read, .ctrl⟩
  | .wr32D0 _ => c == ⟨.data0, .write, .mem⟩
  | .wr32D1 _ => c == ⟨.data1, .write, .mem⟩
  | .wr32D2 _ => c == ⟨.data2, .write, .mem⟩
  | .wr32D3 _ => c == ⟨.data3, .write, .mem⟩
  | .rd32D0 _ => c == ⟨.data0, .read, .mem⟩
  | .rd32D1 _ => c == ⟨.data1, .read, .mem⟩
  | .rd32D2 _ => c == ⟨.data2, .read, .mem⟩
  | .rd32D3 _ => c == ⟨.data3, .read, .mem⟩
  | .selAssert => true
  | .selDeassert => true
  | .reset => true
  | .bulkRead _ _ _ _ => true
  | .regExport _ => true

end Sys2Proof
end

