-- ==== Sys2Proof/Decode.lean ====
section
/-! DEFINITION. Decoding and encoding of host events (30_encoding.md R89, 40_protocol_decoder.md R100). An
instruction's word is one byte of the wire, read in the context the decoder is in; the five signals are events of their
own and have no bits. -/

namespace Sys2Proof

/-- Why a byte has no instruction. R89: the pairs (`Data2`, `Ctrl`) and (`Data3`, `Ctrl`) have no meaning; a model that
meets one must fault. -/
inductive DecodeError where
  | data2InControlSpace
  | data3InControlSpace
  deriving DecidableEq, Repr

/-- The data phases of R100: the rule of (`T.dir`, `Class(T.addr)`) in phase `Data0`. -/
def decodeData0 (d : Direction) (x : AddrClass) (b : Byte) : Instr :=
  match d, x with
  | .write, .ctrl => .wr16D0 b
  | .read, .ctrl => .rd16D0 b
  | .write, .mem => .wr32D0 b
  | .read, .mem => .rd32D0 b

/-- R100 in phase `Data1`. -/
def decodeData1 (d : Direction) (x : AddrClass) (b : Byte) : Instr :=
  match d, x with
  | .write, .ctrl => .wr16D1 b
  | .read, .ctrl => .rd16D1 b
  | .write, .mem => .wr32D1 b
  | .read, .mem => .rd32D1 b

/-- R100 in phase `Data2`, reached only at a memory-space address. -/
def decodeData2 (d : Direction) (x : AddrClass) (b : Byte) : Except DecodeError Instr :=
  match d, x with
  | _, .ctrl => .error .data2InControlSpace
  | .write, .mem => .ok (.wr32D2 b)
  | .read, .mem => .ok (.rd32D2 b)

/-- R100 in phase `Data3`, reached only at a memory-space address. -/
def decodeData3 (d : Direction) (x : AddrClass) (b : Byte) : Except DecodeError Instr :=
  match d, x with
  | _, .ctrl => .error .data3InControlSpace
  | .write, .mem => .ok (.wr32D3 b)
  | .read, .mem => .ok (.rd32D3 b)

/-- The rule R100 selects for `transmit(b)`. -/
def decodeByte (c : Context) (b : Byte) : Except DecodeError Instr :=
  match c.state with
  | .idle => .ok (if b.getLsbD 0 then .caRd b else .caWr b)
  | .subAddressHigh => .ok (.saHi b)
  | .subAddressLow => .ok (.saLo b)
  | .data0 => .ok (decodeData0 c.dir c.cls b)
  | .data1 => .ok (decodeData1 c.dir c.cls b)
  | .data2 => decodeData2 c.dir c.cls b
  | .data3 => decodeData3 c.dir c.cls b

/-- The instruction an event is, in a context (R89: the byte map and the table of the non-byte events). -/
def decode (c : Context) : Event → Except DecodeError Instr
  | .transmit b => decodeByte c b
  | .selAssert => .ok .selAssert
  | .selDeassert => .ok .selDeassert
  | .reset => .ok .reset
  | .bulkRead start count page sink => .ok (.bulkRead start count page sink)
  | .regExport sink => .ok (.regExport sink)

/-- The event that carries an instruction: its byte for the sixteen byte rows of R89, its own event for the five
signals. -/
def encode : Instr → Event
  | .caWr b => .transmit b
  | .caRd b => .transmit b
  | .saHi b => .transmit b
  | .saLo b => .transmit b
  | .wr16D0 b => .transmit b
  | .wr16D1 b => .transmit b
  | .rd16D0 b => .transmit b
  | .rd16D1 b => .transmit b
  | .wr32D0 b => .transmit b
  | .wr32D1 b => .transmit b
  | .wr32D2 b => .transmit b
  | .wr32D3 b => .transmit b
  | .rd32D0 b => .transmit b
  | .rd32D1 b => .transmit b
  | .rd32D2 b => .transmit b
  | .rd32D3 b => .transmit b
  | .selAssert => .selAssert
  | .selDeassert => .selDeassert
  | .reset => .reset
  | .bulkRead start count page sink => .bulkRead start count page sink
  | .regExport sink => .regExport sink

/-- The byte event of a table word: the word's first `nbits` bits, of which the first eight are the byte. -/
def tableEvent (nbits w : Nat) : Event := .transmit (BitVec.ofNat 8 (w % 2 ^ nbits))

/-- The context a table word is read in: the one the machine is in right after construction or reset, `Idle`
(10_state.md R31; log entry 6). `T.dir` and the class do not matter there (R89). -/
def Context.afterReset : Context := ⟨.idle, .write, .mem⟩

/-- The instruction the decoder reads, right after reset, from a table word. A word of no bits (the rows of the five
signals) is no byte, and is refused. -/
def decodeTableWord (nbits w : Nat) : Option Instr :=
  if nbits = 0 then none
  else
    match decode Context.afterReset (tableEvent nbits w) with
    | .ok i => some i
    | .error _ => none

end Sys2Proof
end

