-- ==== Sys2Proof/Machine/Operands.lean ====
section
/-! DEFINITION. The pure part of the machine: address classes and widths, the bytes of a word and the word of four
bytes, fields of a byte or an address, the places of memory words, and the register table's lookups. -/

namespace Sys2Proof.Machine

open Sys2Proof

/-! ### Address classes (20_memory.md R51, R52) -/

/-- `Class(addr)` (R51). -/
def classOf (addr : Word16) : AddrClass :=
  if ctrlBoundary ≤ addr.toNat then .ctrl else .mem

/-- `Width(addr)` in bits, by class (R52). -/
def widthOf : AddrClass → Nat
  | .ctrl => 16
  | .mem => 32

/-! ### Fields and byte order (30_encoding.md R81 to R85; 20_memory.md R62: byte 0 most significant) -/

/-- `b[7:1]`, the chip identifier of a chip-address byte (R81). -/
def chipIdOf (b : Byte) : BitVec 7 := b.extractLsb' 1 7

/-- `T.addr[15:8] <- b` (R82). -/
def withHighByte (a : Word16) (b : Byte) : Word16 := b ++ a.extractLsb' 0 8

/-- `T.addr[7:0] <- b` (R82). -/
def withLowByte (a : Word16) (b : Byte) : Word16 := a.extractLsb' 8 8 ++ b

/-- `DB0 ++ DB1` (R83). -/
def word16Of (b0 b1 : Byte) : Word16 := b0 ++ b1

/-- `DB0 ++ DB1 ++ DB2 ++ DB3` (R84). -/
def word32Of (b0 b1 b2 b3 : Byte) : Word32 := b0 ++ b1 ++ b2 ++ b3

/-- `v[15:8]` and `v[7:0]` of a 16-bit word (R85). -/
def bytesOf16 (v : Word16) : Byte × Byte := (v.extractLsb' 8 8, v.extractLsb' 0 8)

/-- The data bytes of a word in progress, `T.buf : u8[4]`, `b0` the most significant (10_state.md R23). -/
structure Buf where
  b0 : Byte
  b1 : Byte
  b2 : Byte
  b3 : Byte
  deriving DecidableEq, Repr

/-- `v[31:24]`, `v[23:16]`, `v[15:8]` and `v[7:0]` of a 32-bit word (R85, R113). -/
def bytesOf32 (v : Word32) : Buf :=
  ⟨v.extractLsb' 24 8, v.extractLsb' 16 8, v.extractLsb' 8 8, v.extractLsb' 0 8⟩

/-- The four bytes of a buffer in the order of the wire (R62). -/
def Buf.toList (u : Buf) : List Byte := [u.b0, u.b1, u.b2, u.b3]

/-- The bytes an export's sink receives for a list of words: raw big-endian 32-bit words, in order, with no header and
no trailer (43_host_interfaces.md R185; 20_memory.md R63). -/
def sinkStream : List Word32 → List Byte
  | [] => []
  | w :: ws => (bytesOf32 w).toList ++ sinkStream ws

/-! ### Places (10_state.md R25) -/

/-- The place of one memory word: `r`, `p` and `i` of `Mem[r][p][i]` (R25). A region is named by its position in
`REGIONS`. -/
structure Place where
  region : Nat
  page : Page
  index : Nat
  deriving DecidableEq, Repr

/-- A page as a number, for `Place.key`. -/
def pageNumber : Page → Nat
  | .A => 0
  | .B => 1

/-- The number a place's word is listed under. No index reaches 2^16, since every window ends at or below `0xF000`
(00_scope.md R11 item 1), so different places have different numbers. -/
def Place.key (q : Place) : Nat := (q.region * 2 + pageNumber q.page) * 0x10000 + q.index

/-- The region whose window holds a memory-space address, as its position in the list counted from `n`, and the
address's index in it, `addr - base` (20_memory.md R53, R55). -/
def findRegion : List Region → Nat → Nat → Option (Nat × Nat)
  | [], _, _ => none
  | r :: rest, addr, n =>
    if r.base ≤ addr ∧ addr < r.base + r.size then some (n, addr - r.base) else findRegion rest addr (n + 1)

/-- A word of memory exists at a listed number: its region is one of `REGIONS` and its index is below the region's size
(10_state.md R25, R32 item 2). -/
def keyExists (regions : List Region) (k : Nat) : Bool :=
  match regions[k / 0x20000]? with
  | some r => decide (k % 0x10000 < r.size)
  | none => false

/-! ### Memory as data -/

/-- The word listed under a number; 0 where none is listed (log entry 4). -/
def cellRead : Memory → Nat → Word32
  | [], _ => 0
  | (j, w) :: rest, k => if j = k then w else cellRead rest k

/-- Write the word of a number, keeping the canonical form: numbers strictly rising, and no word listed that is 0. -/
def cellWrite : Memory → Nat → Word32 → Memory
  | [], k, v => if v = 0 then [] else [(k, v)]
  | (j, w) :: rest, k, v =>
    if k < j then (if v = 0 then (j, w) :: rest else (k, v) :: (j, w) :: rest)
    else if j = k then (if v = 0 then rest else (k, v) :: rest)
    else (j, w) :: cellWrite rest k v

/-- Whether every number of a memory is above `k`. -/
def Memory.above (k : Nat) : Memory → Bool
  | [] => true
  | (j, _) :: rest => decide (k < j) && Memory.above k rest

/-- The canonical form of a memory: numbers strictly rising, and no listed word equal to what an unlisted place reads
as. -/
def Memory.wf : Memory → Bool
  | [] => true
  | (j, w) :: rest => Memory.above j rest && decide (w ≠ 0) && Memory.wf rest

/-- Every listed word exists in the regions (R32 item 2). -/
def Memory.placed (regions : List Region) (m : Memory) : Bool := m.all fun c => keyExists regions c.1

/-! ### The register table and the register values (41_register_bank.md R140) -/

/-- `lookup(a)` (R140): the entry whose address is `a`, or none. -/
def lookup (table : List RegEntry) (a : Word16) : Option RegEntry :=
  match table with
  | [] => none
  | e :: rest => if e.addr = a then some e else lookup rest a

/-- The stored value `Reg[a]` (10_state.md R24). -/
def regGet (reg : List (Word16 × Word16)) (a : Word16) : Word16 :=
  match reg with
  | [] => 0
  | (k, v) :: rest => if k = a then v else regGet rest a

/-- `Reg[a] <- v` (R24). -/
def regSet (reg : List (Word16 × Word16)) (a v : Word16) : List (Word16 × Word16) :=
  match reg with
  | [] => [(a, v)]
  | (k, w) :: rest => if k = a then (a, v) :: rest else (k, w) :: regSet rest a v

/-- Every register of a table at its reset value: one entry for each declared register (10_state.md R24, R31). -/
def resetValues : List RegEntry → List (Word16 × Word16)
  | [] => []
  | e :: rest => (e.addr, e.reset) :: resetValues rest

/-- `v[PAGE_BIT]` as a page: 0 gives `A` and 1 gives `B` (R148, D9). -/
def pageOfValue (p : Params) (v : Word16) : Page :=
  if v.getLsbD p.pageBit.val then .B else .A

/-- The page at construction, and after a reset with `PAGE_ON_RESET = FromRegisterReset`: bit `PAGE_BIT` of the reset
value of `PAGE_REG` (70_reset_and_hazards.md R220, R221, R223). A well-formed parameter set declares `PAGE_REG`
(00_scope.md R11 item 7), so the last case does not arise. -/
def pageAtReset (p : Params) : Page :=
  match lookup p.regTable p.pageReg with
  | some e => pageOfValue p e.reset
  | none => .A

/-! ### Safeload parameters by page (42_safeload.md, notation) -/

/-- `Force(p)`. -/
def force : Page → Override
  | .A => .forceA
  | .B => .forceB

/-- `TRIG_p`. -/
def trigOf (p : Params) : Page → Word16
  | .A => p.trigA
  | .B => p.trigB

/-- `STAGE_p`. -/
def stageOf (p : Params) : Page → Word16
  | .A => p.stageA
  | .B => p.stageB

/-- `PTR_p`. -/
def ptrOf (p : Params) : Page → Word16
  | .A => p.ptrA
  | .B => p.ptrB

end Sys2Proof.Machine
end

