-- ==== Sys2Proof/Machine/State.lean ====
section
/-! DEFINITION. The state of the block (10_state.md), the ways a step can stop, and the state right after
construction. -/

namespace Sys2Proof.Machine

open Sys2Proof

/-- Why the machine stops with a fault. -/
inductive Fault where
  /-- Raised by `step` alone, when a byte arrives in phase `Data2` while `Class(T.addr) = Ctrl`. The pair cannot be
  reached (R32 item 1), and 30_encoding.md R89 and 93_implementation_defined.md U3 require a named fault. Safe: no run
  of the block meets it. -/
  | data2InControlSpace
  /-- The same in phase `Data3` (R89, U3). Safe. -/
  | data3InControlSpace
  deriving DecidableEq, Repr

/-- Why the machine gives a step no meaning. -/
inductive Refusal where
  /-- Raised by an arm of `exec` whose instruction has no meaning yet. No arm is such an arm. Safe. -/
  | notModelled (mnemonic : String)
  /-- Raised by `configure`, and by `step` on a state that carries such parameters: the parameter set breaks
  00_scope.md R11, and a model must refuse it and must not run on it (U4, D36). Safe: no claim is made of such a set. -/
  | illFormedParameters
  deriving DecidableEq, Repr

/-- A diagnostic event of a step's log (10_state.md R30). -/
inductive LogEvent where
  /-- `WarnChipId(b)` -/
  | warnChipId (b : Byte)
  /-- `ErrReadUnmapped(addr)` -/
  | errReadUnmapped (addr : Word16)
  /-- `HookBackup(addr, v)` -/
  | hookBackup (addr v : Word16)
  deriving DecidableEq, Repr

/-- One item of a run's observation: a log event, a reply byte, or an export's result (00_scope.md R9,
70_reset_and_hazards.md R233). -/
inductive Observation where
  /-- a log event -/
  | log (e : LogEvent)
  /-- the byte `transmit` returns -/
  | reply (b : Byte)
  /-- the words a bulk read returns, and the bytes its sink received (R184, R185) -/
  | bulkRead (words : List Word32) (sinkBytes : List Byte)
  /-- the pairs of a register export (R186) -/
  | regExport (pairs : List (Word16 × Word16))
  /-- an export's result `Err(message)` (R187) -/
  | exportFailed (message : String)
  deriving DecidableEq, Repr

/-- The state `S = (T, Reg, Mem, Page)` of 10_state.md, and three fields of the model's own: the parameters, which no
step changes (log entry 1), the host's events that have not been taken yet, and what the host has been answered
(log entry 3). -/
structure State where
  /-- the parameters of 00_scope.md R10 -/
  cfg : Params
  /-- `T.state` (R21) -/
  tState : DecoderState
  /-- `T.dir` (R22) -/
  tDir : Direction
  /-- `T.addr` (R20) -/
  tAddr : Word16
  /-- `T.buf` (R23) -/
  tBuf : Buf
  /-- `Reg`: the address and the stored value of each declared register (R24) -/
  reg : List (Word16 × Word16)
  /-- `Mem` (R25) -/
  mem : Memory
  /-- `Page` (R26) -/
  page : Page
  /-- the events the host has delivered and the block has not taken yet, oldest first -/
  input : List Event
  /-- every log event, reply and export result so far, oldest first (R233) -/
  trace : List Observation
  deriving DecidableEq, Repr

/-- The state at construction under the parameters `p` (70_reset_and_hazards.md R220, 10_state.md R31). `T.dir`,
`T.addr` and `T.buf` are unobservable there, and R31 allows `Write`, 0 and zeros (log entry 5). -/
def State.construct (p : Params) : State where
  cfg := p
  tState := .idle
  tDir := .write
  tAddr := 0
  tBuf := ⟨0, 0, 0, 0⟩
  reg := resetValues p.regTable
  mem := p.memInit
  page := pageAtReset p
  input := []
  trace := []

/-- The machine right after reset: the construction state of the parameter set `Config.params` (log entry 2). The
host's reset event is `execReset`. -/
def State.reset : State := State.construct Config.params

end Sys2Proof.Machine
end

