-- ==== Sys2Proof/Machine/Flags.lean ====
section
/-! DEFINITION. The named updates of the state, one for each field a rule writes. The block has no condition codes: the
direction flag `T.dir` and the page `Page` are its only flags (40_protocol_decoder.md, part 4 of its rule template;
10_state.md R22). -/

namespace Sys2Proof.Machine

open Sys2Proof

/-- `T.state <- x`. -/
def State.setPhase (s : State) (x : DecoderState) : State := { s with tState := x }

/-- `T.dir <- d`. -/
def State.setDir (s : State) (d : Direction) : State := { s with tDir := d }

/-- `T.addr <- a`. -/
def State.setAddr (s : State) (a : Word16) : State := { s with tAddr := a }

/-- Write `T.buf`. -/
def State.setBuf (s : State) (u : Buf) : State := { s with tBuf := u }

/-- Write `Reg`. -/
def State.setReg (s : State) (g : List (Word16 × Word16)) : State := { s with reg := g }

/-- Write `Mem`. -/
def State.setMem (s : State) (m : Memory) : State := { s with mem := m }

/-- `Page <- p`. -/
def State.setPage (s : State) (p : Page) : State := { s with page := p }

/-- Append to what the host observes. -/
def State.emit (s : State) (o : Observation) : State := { s with trace := s.trace ++ [o] }

/-- `log E(args)` (00_scope.md R13). -/
def State.logEvent (s : State) (e : LogEvent) : State := s.emit (.log e)

/-- The byte `transmit` returns, given at the end of the rule (R100). -/
def State.answer (s : State) (b : Byte) : State := s.emit (.reply b)

/-- The reply outside a read data phase, `DEFAULT_OUT` (30_encoding.md R86). -/
def State.answerDefault (s : State) : State := s.answer s.cfg.defaultOut

end Sys2Proof.Machine
end

