-- ==== Sys2Proof/Machine/Ops.lean ====
section
/-! DEFINITION. The named operations over memory and registers. The block raises no exception and returns from none
(60_exceptions.md R200, R206): no operation here saves state, vectors or changes a mode. -/

namespace Sys2Proof.Machine

open Sys2Proof

/-! ### Memory (20_memory.md R55 to R58) -/

/-- `PageOf(ovr)` (R56): the whole of the dual-page bank selector. -/
def pageOf (s : State) : Override → Page
  | .current => s.page
  | .forceA => .A
  | .forceB => .B

/-- `Resolve(addr, ovr)` (R55). -/
def resolve (s : State) (addr : Nat) (ovr : Override) : Option Place :=
  if ctrlBoundary ≤ addr then none
  else
    match findRegion s.cfg.regions addr 0 with
    | some (r, i) => some ⟨r, pageOf s ovr, i⟩
    | none => none

/-- `Mem[r][p][i]` (10_state.md R25). -/
def memWord (s : State) (q : Place) : Word32 := cellRead s.mem q.key

/-- `Mem[r][p][i] <- v`. -/
def setMemWord (s : State) (q : Place) (v : Word32) : State := s.setMem (cellWrite s.mem q.key v)

/-- `MemRead(addr, ovr)` (R57): 0 at an address that resolves to none. -/
def memRead (s : State) (addr : Nat) (ovr : Override) : Word32 :=
  match resolve s addr ovr with
  | some q => memWord s q
  | none => 0

/-- `MemWrite(addr, v, ovr)` (R58): nothing at an address that resolves to none. -/
def memWrite (s : State) (addr : Nat) (v : Word32) (ovr : Override) : State :=
  match resolve s addr ovr with
  | some q => setMemWord s q v
  | none => s

/-! ### The register bank (41_register_bank.md) -/

/-- The value a declared entry reads as: its synthesized value, or else its stored value (R142, R141). `RegPeek(e)` of
R151. -/
def regPeek (s : State) (e : RegEntry) : Word16 :=
  match e.synth with
  | some v => v
  | none => regGet s.reg e.addr

/-- `RegRead(a)` (R141, R149): the value, and the state with `ErrReadUnmapped` logged if no register is declared. -/
def regRead (s : State) (a : Word16) : Word16 × State :=
  match lookup s.cfg.regTable a with
  | none => (0, s.logEvent (.errReadUnmapped a))
  | some e => (regPeek s e, s)

/-- `SideEffect(tag, a, v)` (R146): R148 for `PAGE_SELECT`, R147 for `BACKUP_DOMAIN`. A well-formed table gives every
`RWSE` entry a tag (R11 item 9). -/
def sideEffect (s : State) (tag : Option SideEffectTag) (a v : Word16) : State :=
  match tag with
  | some .pageSelect => s.setPage (pageOfValue s.cfg v)
  | some .backupDomain => s.logEvent (.hookBackup a v)
  | none => s

/-- `Reg[a] <- v` (R145). -/
def storeReg (s : State) (a v : Word16) : State := s.setReg (regSet s.reg a v)

/-- `RegWrite(a, v)` (R143 to R146, R149). -/
def regWrite (s : State) (a v : Word16) : State :=
  match lookup s.cfg.regTable a with
  | none => s
  | some e =>
    match e.mode with
    | .ro => s
    | .rw => storeReg s a v
    | .rwse => sideEffect (storeReg s a v) e.tag a v

/-- The register values after `RegBankReset` (R150): `for each e in REG_TABLE: Reg[e.addr] <- e.reset`. -/
def resetRegs (reg : List (Word16 × Word16)) : List RegEntry → List (Word16 × Word16)
  | [] => reg
  | e :: rest => resetRegs (regSet reg e.addr e.reset) rest

/-- `RegBankReset()` (R150). -/
def regBankReset (s : State) : State := s.setReg (resetRegs s.reg s.cfg.regTable)

/-- The page part of a reset (70_reset_and_hazards.md R221, R223). -/
def pageReset (s : State) : State :=
  match s.cfg.pageOnReset with
  | .fromRegisterReset => s.setPage (pageAtReset s.cfg)
  | .unchanged => s

/-! ### The safeload engine (42_safeload.md) -/

/-- `PtrValue(p)` (R163): the whole 32-bit word, as an untruncated word address. -/
def ptrValue (s : State) (p : Page) : Nat :=
  if p = .A ∧ s.cfg.safeloadPtrShared = true then (memRead s s.cfg.ptrB.toNat .forceB).toNat
  else (memRead s (ptrOf s.cfg p).toNat (force p)).toNat

/-- One iteration of the copy: read the word at `src`, then write it at `dst` (R162, R167). -/
def copyWord (s : State) (ovr : Override) (src dst : Nat) : State := memWrite s dst (memRead s src ovr) ovr

/-- `n` iterations in ascending order, from `src` and `dst` on (R162, R167). -/
def copyWords (s : State) (ovr : Override) (src dst : Nat) : Nat → State
  | 0 => s
  | n + 1 => copyWords (copyWord s ovr src dst) ovr (src + 1) (dst + 1) n

/-- The number of iterations that can change state (R170): `min(N, 0xF000 - D)` where `D < 0xF000`, and none
otherwise. -/
def copyCount (d n : Nat) : Nat := min n (ctrlBoundary - d)

/-- `SafeloadCopy(p, N)` (R162), run over the iterations that R170 says are enough. The pointer is read once, before
the first word moves (R163, R167). -/
def safeloadCopy (s : State) (p : Page) (n : Nat) : State :=
  copyWords s (force p) (stageOf s.cfg p).toNat (ptrValue s p) (copyCount (ptrValue s p) n)

/-- `SafeloadCheck(addr, v)` (R160, R164). -/
def safeloadCheck (s : State) (addr : Word16) (v : Word32) : State :=
  if addr = s.cfg.trigA ∧ 1 ≤ v.toNat then safeloadCopy s .A v.toNat
  else if addr = s.cfg.trigB ∧ 1 ≤ v.toNat then safeloadCopy s .B v.toNat
  else s

/-! ### The decoder's helpers (40_protocol_decoder.md R117, R120, R121) -/

/-- `Advance()` (R117): `T.addr <- (T.addr + 1) mod 2^16`. -/
def advance (s : State) : State := s.setAddr (s.tAddr + 1)

/-- `DecoderRead(addr)` (R120): the word, and the state with the error logged where the address maps to nothing. -/
def decoderRead (s : State) (addr : Word16) : Word32 × State :=
  match classOf addr with
  | .ctrl => ((regRead s addr).1.setWidth 32, (regRead s addr).2)
  | .mem =>
    match resolve s addr.toNat .current with
    | some q => (memWord s q, s)
    | none => (0, s.logEvent (.errReadUnmapped addr))

/-- `DecoderCommit(addr, v)` (R121): a register write, or a memory write and then the safeload check. -/
def decoderCommit (s : State) (addr : Word16) (v : Word32) : State :=
  match classOf addr with
  | .ctrl => regWrite s addr (v.setWidth 16)
  | .mem => safeloadCheck (memWrite s addr.toNat v .current) addr v

/-! ### Shapes shared by the transmit rules -/

/-- The end of a word's last byte: advance the address, and go on at `Data0` (R106, R108, R112, R116). -/
def endWord (s : State) : State := (advance s).setPhase .data0

/-- The chip-address byte (R101, R102): warn if the identifier is not `CHIP_ID`, take the direction, go on at the
sub-address. -/
def chipAddress (s : State) (b : Byte) (d : Direction) : State :=
  let s1 := if chipIdOf b = s.cfg.chipId then s else s.logEvent (.warnChipId b)
  (s1.setDir d).setPhase .subAddressHigh

end Sys2Proof.Machine
end

