-- ==== Sys2Proof/Machine/Configuration.lean ====
section
/-! DEFINITION. The well-formedness of a parameter set, item by item of 00_scope.md R11, and configuration, which
refuses an ill-formed set (92_eei_decisions.md D36). Item 5 holds by the types of `Params`. -/

namespace Sys2Proof.Machine

open Sys2Proof

/-- Whether an address lies inside some region. -/
def insideRegion (regions : List Region) (addr : Nat) : Bool :=
  regions.any fun r => decide (r.base ≤ addr ∧ addr < r.base + r.size)

/-- Item 1: every region has `size ≥ 1` and `base + size ≤ CTRL_BOUNDARY`. -/
def windowsBounded (p : Params) : Bool :=
  p.regions.all fun r => decide (1 ≤ r.size ∧ r.base + r.size ≤ ctrlBoundary)

/-- Whether two windows share no address. -/
def windowsApart (r q : Region) : Bool :=
  decide (r.base + r.size ≤ q.base ∨ q.base + q.size ≤ r.base)

/-- Whether no two regions of a list overlap. -/
def allApart : List Region → Bool
  | [] => true
  | r :: rest => rest.all (windowsApart r) && allApart rest

/-- Item 2: the regions do not overlap (and so ascend when sorted by `base`; the list's own order is left free, log
entry 9). -/
def windowsDisjoint (p : Params) : Bool := allApart p.regions

/-- How many regions have a kind. -/
def kindCount (k : RegionKind) : List Region → Nat
  | [] => 0
  | r :: rest => (if r.kind = k then 1 else 0) + kindCount k rest

/-- Item 3: two data regions and one program region (90_conflicts.md C1; no fourth region, log entry 8). -/
def kindsCounted (p : Params) : Bool :=
  kindCount .data p.regions == 2 && kindCount .program p.regions == 1

/-- Item 4: some region contains address `0x0010` at index `0x10`, so its base is `0x0000`. -/
def baseZeroRegion (p : Params) : Bool :=
  p.regions.any fun r => decide (r.base = 0 ∧ 0x10 < r.size)

/-- Whether no two entries of a table have the same address. -/
def addrsDistinct : List RegEntry → Bool
  | [] => true
  | e :: rest => rest.all (fun f => decide (f.addr ≠ e.addr)) && addrsDistinct rest

/-- Item 6: the addresses in `REG_TABLE` are distinct, and each lies in `[CTRL_BOUNDARY, 0xFFFF]`. -/
def tableAddresses (p : Params) : Bool :=
  addrsDistinct p.regTable && p.regTable.all fun e => decide (ctrlBoundary ≤ e.addr.toNat)

/-- How many entries of a table have the tag `PAGE_SELECT`. -/
def pageSelectCount : List RegEntry → Nat
  | [] => 0
  | e :: rest => (if e.tag = some .pageSelect then 1 else 0) + pageSelectCount rest

/-- Item 7: exactly one entry has the tag `PAGE_SELECT`; its address is `PAGE_REG` and its mode `RWSE`. -/
def onePageSelect (p : Params) : Bool :=
  pageSelectCount p.regTable == 1 &&
    p.regTable.all fun e => decide (e.tag = some .pageSelect → e.addr = p.pageReg ∧ e.mode = .rwse)

/-- Item 8: an entry with a synthesized read value has mode `RO`. -/
def synthReadOnly (p : Params) : Bool :=
  p.regTable.all fun e => decide (e.synth.isSome = true → e.mode = .ro)

/-- Item 9: an entry has a side-effect tag if and only if its mode is `RWSE`. -/
def tagsMatchModes (p : Params) : Bool :=
  p.regTable.all fun e => decide (e.tag.isSome = true ↔ e.mode = .rwse)

/-- Item 10: `TRIG_A ≠ TRIG_B`. -/
def triggersDistinct (p : Params) : Bool := decide (p.trigA ≠ p.trigB)

/-- Item 11: the six safeload addresses each lie inside some region. -/
def safeloadInside (p : Params) : Bool :=
  [p.trigA, p.trigB, p.stageA, p.stageB, p.ptrA, p.ptrB].all fun a => insideRegion p.regions a.toNat

/-- The model's own check of `MEM_INIT`: it is written in the canonical form and lists only words that exist, so that it
stands for a value of every memory word and of nothing else (R10, log entry 4). -/
def memInitCanonical (p : Params) : Bool :=
  Memory.wf p.memInit && Memory.placed p.regions p.memInit

/-- A parameter set is well-formed (R11). -/
def wellFormed (p : Params) : Bool :=
  windowsBounded p && windowsDisjoint p && kindsCounted p && baseZeroRegion p && tableAddresses p && onePageSelect p &&
    synthReadOnly p && tagsMatchModes p && triggersDistinct p && safeloadInside p && memInitCanonical p

/-- Construction under a parameter set: the state of R220, or a refusal of an ill-formed set (R11, U4). -/
def configure (p : Params) : Host.Outcome State Fault Refusal :=
  if wellFormed p then .next (State.construct p) else .refused .illFormedParameters

end Sys2Proof.Machine
end

