-- ==== Sys2Proof/Machine/ControlWords.lean ====
section
/-! DEFINITION. The 16-bit words of the control-register space: `WR16_D0`, `WR16_D1`, `RD16_D0` and `RD16_D1`
(40_protocol_decoder.md R105 to R108). -/

namespace Sys2Proof.Machine

open Sys2Proof

/-- `WR16_D0` (R105). -/
def execWr16D0 (b : Byte) (s : State) : Host.Outcome State Fault Refusal :=
  .next ((s.setBuf { s.tBuf with b0 := b }).setPhase .data1).answerDefault

/-- `WR16_D1` (R106): the commit of the 16-bit word, then the address advance. -/
def execWr16D1 (b : Byte) (s : State) : Host.Outcome State Fault Refusal :=
  let v := word16Of s.tBuf.b0 b
  .next (endWord (decoderCommit (s.setBuf { s.tBuf with b1 := b }) s.tAddr (v.setWidth 32))).answerDefault

/-- `RD16_D0` (R107): the word is read once, here; the reply is its high byte. -/
def execRd16D0 (_b : Byte) (s : State) : Host.Outcome State Fault Refusal :=
  let r := decoderRead s s.tAddr
  let v := bytesOf16 (r.1.setWidth 16)
  .next (((r.2.setBuf { s.tBuf with b0 := v.1, b1 := v.2 }).setPhase .data1).answer v.1)

/-- `RD16_D1` (R108): the reply is the low byte. -/
def execRd16D1 (_b : Byte) (s : State) : Host.Outcome State Fault Refusal :=
  .next ((endWord s).answer s.tBuf.b1)

end Sys2Proof.Machine
end

