-- ==== Sys2Proof/Machine/Exports.lean ====
section
/-! DEFINITION. The two diagnostic exports: `BULK_READ` and `REG_EXPORT` (43_host_interfaces.md R184 to R187). -/

namespace Sys2Proof.Machine

open Sys2Proof

/-- `[ MemRead(addr + k, ovr) for k = 0 .. count - 1 ]` (R184); the address is a natural number and does not wrap. -/
def readBlock (s : State) (ovr : Override) (addr : Nat) : Nat → List Word32
  | 0 => []
  | n + 1 => memRead s addr ovr :: readBlock s ovr (addr + 1) n

/-- Insert an entry's pair before the first pair with a higher address. -/
def insertPair (x : Word16 × Word16) : List (Word16 × Word16) → List (Word16 × Word16)
  | [] => [x]
  | y :: rest => if x.1.toNat ≤ y.1.toNat then x :: y :: rest else y :: insertPair x rest

/-- The pairs `(e.addr, RegPeek(e))` of a table's entries, sorted by ascending address (R186). -/
def exportPairs (s : State) : List RegEntry → List (Word16 × Word16)
  | [] => []
  | e :: rest => insertPair (e.addr, regPeek s e) (exportPairs s rest)

/-- `BULK_READ` (R184, R185, R187): the words and their big-endian stream if the sink takes them, `Err(message)` if it
fails; nothing else changes. -/
def execBulkRead (start : Word16) (count : Nat) (page : Page) (sink : SinkAnswer) (s : State) :
    Host.Outcome State Fault Refusal :=
  let words := readBlock s (force page) start.toNat count
  match sink with
  | .ok => .next (s.emit (.bulkRead words (sinkStream words)))
  | .err message => .next (s.emit (.exportFailed message))

/-- `REG_EXPORT` (R186, R187): the pairs of every declared register, or `Err(message)`; nothing else changes. -/
def execRegExport (sink : SinkAnswer) (s : State) : Host.Outcome State Fault Refusal :=
  match sink with
  | .ok => .next (s.emit (.regExport (exportPairs s s.cfg.regTable)))
  | .err message => .next (s.emit (.exportFailed message))

end Sys2Proof.Machine
end

