-- ==== Sys2Proof/Machine/Header.lean ====
section
/-! DEFINITION. The header phase: `CA_WR`, `CA_RD`, `SA_HI` and `SA_LO` (40_protocol_decoder.md R101 to R104). -/

namespace Sys2Proof.Machine

open Sys2Proof

/-- `CA_WR` (R101). -/
def execCaWr (b : Byte) (s : State) : Host.Outcome State Fault Refusal :=
  .next (chipAddress s b .write).answerDefault

/-- `CA_RD` (R102). -/
def execCaRd (b : Byte) (s : State) : Host.Outcome State Fault Refusal :=
  .next (chipAddress s b .read).answerDefault

/-- `SA_HI` (R103): `T.addr[7:0]` keeps its stale value. -/
def execSaHi (b : Byte) (s : State) : Host.Outcome State Fault Refusal :=
  .next ((s.setAddr (withHighByte s.tAddr b)).setPhase .subAddressLow).answerDefault

/-- `SA_LO` (R104). -/
def execSaLo (b : Byte) (s : State) : Host.Outcome State Fault Refusal :=
  .next ((s.setAddr (withLowByte s.tAddr b)).setPhase .data0).answerDefault

end Sys2Proof.Machine
end

