-- ==== Sys2Proof/Machine/MemoryWords.lean ====
section
/-! DEFINITION. The 32-bit words of the memory space: `WR32_D0` to `WR32_D3` and `RD32_D0` to `RD32_D3`
(40_protocol_decoder.md R109 to R116). -/

namespace Sys2Proof.Machine

open Sys2Proof

/-- `WR32_D0` (R109). -/
def execWr32D0 (b : Byte) (s : State) : Host.Outcome State Fault Refusal :=
  .next ((s.setBuf { s.tBuf with b0 := b }).setPhase .data1).answerDefault

/-- `WR32_D1` (R110). -/
def execWr32D1 (b : Byte) (s : State) : Host.Outcome State Fault Refusal :=
  .next ((s.setBuf { s.tBuf with b1 := b }).setPhase .data2).answerDefault

/-- `WR32_D2` (R111). -/
def execWr32D2 (b : Byte) (s : State) : Host.Outcome State Fault Refusal :=
  .next ((s.setBuf { s.tBuf with b2 := b }).setPhase .data3).answerDefault

/-- `WR32_D3` (R112): the commit of the 32-bit word and the safeload check, then the address advance. -/
def execWr32D3 (b : Byte) (s : State) : Host.Outcome State Fault Refusal :=
  let v := word32Of s.tBuf.b0 s.tBuf.b1 s.tBuf.b2 b
  .next (endWord (decoderCommit (s.setBuf { s.tBuf with b3 := b }) s.tAddr v)).answerDefault

/-- `RD32_D0` (R113): the word is read once, here; the reply is its most significant byte. -/
def execRd32D0 (_b : Byte) (s : State) : Host.Outcome State Fault Refusal :=
  let r := decoderRead s s.tAddr
  .next (((r.2.setBuf (bytesOf32 r.1)).setPhase .data1).answer (bytesOf32 r.1).b0)

/-- `RD32_D1` (R114). -/
def execRd32D1 (_b : Byte) (s : State) : Host.Outcome State Fault Refusal :=
  .next ((s.setPhase .data2).answer s.tBuf.b1)

/-- `RD32_D2` (R115). -/
def execRd32D2 (_b : Byte) (s : State) : Host.Outcome State Fault Refusal :=
  .next ((s.setPhase .data3).answer s.tBuf.b2)

/-- `RD32_D3` (R116). -/
def execRd32D3 (_b : Byte) (s : State) : Host.Outcome State Fault Refusal :=
  .next ((endWord s).answer s.tBuf.b3)

end Sys2Proof.Machine
end

