-- ==== Sys2Proof/Machine/Signals.lean ====
section
/-! DEFINITION. The selection signal and the reset signal: `SEL_ASSERT`, `SEL_DEASSERT` (43_host_interfaces.md R180,
R181) and `RESET` (70_reset_and_hazards.md R221). -/

namespace Sys2Proof.Machine

open Sys2Proof

/-- `SEL_ASSERT` (R180): no change. -/
def execSelAssert (s : State) : Host.Outcome State Fault Refusal := .next s

/-- `SEL_DEASSERT` (R181): `T.state <- Idle`; the other fields of `T` keep stale values. -/
def execSelDeassert (s : State) : Host.Outcome State Fault Refusal := .next (s.setPhase .idle)

/-- `RESET` (R221 to R224): the registers, the page, `Idle`; no side effect, no log, memory unchanged. -/
def execReset (s : State) : Host.Outcome State Fault Refusal :=
  .next ((pageReset (regBankReset s)).setPhase .idle)

end Sys2Proof.Machine
end

