-- ==== Sys2Proof/Machine/Dispatch.lean ====
section
/-! DEFINITION. The dispatch of an instruction to its meaning: one arm for each row of the opcode table. -/

namespace Sys2Proof.Machine

open Sys2Proof

def exec (i : Instr) (s : State) : Host.Outcome State Fault Refusal :=
  match i with
  | .caWr b => Sys2Proof.Machine.execCaWr b s
  | .caRd b => Sys2Proof.Machine.execCaRd b s
  | .saHi b => Sys2Proof.Machine.execSaHi b s
  | .saLo b => Sys2Proof.Machine.execSaLo b s
  | .wr16D0 b => Sys2Proof.Machine.execWr16D0 b s
  | .wr16D1 b => Sys2Proof.Machine.execWr16D1 b s
  | .rd16D0 b => Sys2Proof.Machine.execRd16D0 b s
  | .rd16D1 b => Sys2Proof.Machine.execRd16D1 b s
  | .wr32D0 b => Sys2Proof.Machine.execWr32D0 b s
  | .wr32D1 b => Sys2Proof.Machine.execWr32D1 b s
  | .wr32D2 b => Sys2Proof.Machine.execWr32D2 b s
  | .wr32D3 b => Sys2Proof.Machine.execWr32D3 b s
  | .rd32D0 b => Sys2Proof.Machine.execRd32D0 b s
  | .rd32D1 b => Sys2Proof.Machine.execRd32D1 b s
  | .rd32D2 b => Sys2Proof.Machine.execRd32D2 b s
  | .rd32D3 b => Sys2Proof.Machine.execRd32D3 b s
  | .selAssert => Sys2Proof.Machine.execSelAssert s
  | .selDeassert => Sys2Proof.Machine.execSelDeassert s
  | .reset => Sys2Proof.Machine.execReset s
  | .bulkRead start count page sink => Sys2Proof.Machine.execBulkRead start count page sink s
  | .regExport sink => Sys2Proof.Machine.execRegExport sink s

end Sys2Proof.Machine
end

