-- ==== Sys2Proof/Machine/Fetch.lean ====
section
/-! DEFINITION. Taking the next event: the context a byte is read in (30_encoding.md R89), the event list without its
first event, and the fault a refused byte is. -/

namespace Sys2Proof.Machine

open Sys2Proof

/-- The triple (`T.state`, `T.dir`, `Class(T.addr)`) that selects the rule (R89, R100). -/
def contextOf (s : State) : Context := ⟨s.tState, s.tDir, classOf s.tAddr⟩

/-- The state with the given events still to take. -/
def State.setInput (s : State) (events : List Event) : State := { s with input := events }

/-- The named fault of a byte that has no rule (R89, 93_implementation_defined.md U3). -/
def faultOf : DecodeError → Fault
  | .data2InControlSpace => .data2InControlSpace
  | .data3InControlSpace => .data3InControlSpace

/-- The state with an event as the next one to take. -/
def pushEvent (s : State) (e : Event) : State := s.setInput (e :: s.input)

end Sys2Proof.Machine
end

