-- ==== Sys2Proof/Machine/Step.lean ====
section
/-! DEFINITION. One step: take the host's next event, select its rule, run it (00_scope.md R8, R9). -/

namespace Sys2Proof.Machine

open Sys2Proof

/-- `Step(S, event)` (R9), with the event taken from the host's list. An ill-formed parameter set is not run on (R11).
With no event there is nothing to do, and the state stays (log entry 7). -/
def step (s : State) : Host.Outcome State Fault Refusal :=
  if wellFormed s.cfg then
    match s.input with
    | [] => .next s
    | e :: rest =>
      match decode (contextOf s) e with
      | .ok i => exec i (s.setInput rest)
      | .error r => .fault (faultOf r)
  else .refused .illFormedParameters

/-- The state with a table word's byte as the next event (log entry 6). -/
def State.withFetchWord (s : State) (nbits w : Nat) : State :=
  if nbits = 0 then s else pushEvent s (tableEvent nbits w)

end Sys2Proof.Machine
end

