-- ==== Sys2Proof/Machine/Transactions.lean ====
section
/-! DEFINITION. Host-side notation: the pseudo-transactions of 30_encoding.md R91, the shape of a transaction (R80), and
a run as a finite list of events applied from a start state (70_reset_and_hazards.md R233). -/

namespace Sys2Proof.Machine

open Sys2Proof

/-- The direction bit of a chip-address byte: 1 = `Read`, 0 = `Write` (R81). -/
def directionBit : Direction → BitVec 1
  | .write => 0
  | .read => 1

/-- A well-formed chip-address byte (R81, R91): `CHIP_ID << 1` and the direction. -/
def chipByte (p : Params) (d : Direction) : Byte := p.chipId ++ directionBit d

/-- The three header bytes of a transaction: `CA`, `SAH` and `SAL` (R80 to R82). -/
def headerBytes (p : Params) (d : Direction) (addr : Word16) : List Byte :=
  [chipByte p d, addr.extractLsb' 8 8, addr.extractLsb' 0 8]

/-- The data bytes of one written word, most significant first (R83, R84, R91). At a control-register address the word
is the value's low 16 bits. -/
def wordBytes (addr : Word16) (v : Word32) : List Byte :=
  match classOf addr with
  | .ctrl => [(bytesOf16 (v.setWidth 16)).1, (bytesOf16 (v.setWidth 16)).2]
  | .mem => (bytesOf32 v).toList

/-- The data bytes of a burst of words, at consecutive addresses mod 2^16 (R91). -/
def burstBytes (addr : Word16) : List Word32 → List Byte
  | [] => []
  | v :: vs => wordBytes addr v ++ burstBytes (addr + 1) vs

/-- The filler bytes of a read of `k` words: `00`, repeated `Width(a_j)/8` times for each word (R91). -/
def fillerBytes (addr : Word16) : Nat → List Byte
  | 0 => []
  | k + 1 => List.replicate (widthOf (classOf addr) / 8) 0 ++ fillerBytes (addr + 1) k

/-- The events of a list of transmitted bytes. -/
def transmits (bytes : List Byte) : List Event := bytes.map .transmit

/-- `WR addr: v0, v1, ..., v(k-1)` (R91). -/
def writeTransaction (p : Params) (addr : Word16) (words : List Word32) : List Event :=
  .selAssert :: (transmits (headerBytes p .write addr ++ burstBytes addr words) ++ [.selDeassert])

/-- `RD addr, k` (R91). -/
def readTransaction (p : Params) (addr : Word16) (k : Nat) : List Event :=
  .selAssert :: (transmits (headerBytes p .read addr ++ fillerBytes addr k) ++ [.selDeassert])

/-- `n` steps from a state, stopping at the first fault or refusal. -/
def stepN : Nat → State → Host.Outcome State Fault Refusal
  | 0, s => .next s
  | n + 1, s =>
    match step s with
    | .next t => stepN n t
    | .fault r => .fault r
    | .refused r => .refused r

/-- A run (R233): the listed events, and nothing else, delivered to a state and taken one after another. -/
def runEvents (s : State) (events : List Event) : Host.Outcome State Fault Refusal :=
  stepN events.length (s.setInput events)

end Sys2Proof.Machine
end

