-- ==== Sys2Proof/Safety.lean ====
section
/-! DEFINITION. The invariants of the reachable states (10_state.md R24, R32; 41_register_bank.md R141;
70_reset_and_hazards.md R223), in the terms the statements use, and the tests of an outcome. -/

namespace Sys2Proof.Machine

open Sys2Proof

/-- R32 item 1: in `Data2` and `Data3` the address is a memory-space address. -/
def PhaseInSpace (s : State) : Prop :=
  s.tState = .data2 ∨ s.tState = .data3 → s.tAddr.toNat < ctrlBoundary

/-- R24: the bank holds one entry for each declared register, and no other. -/
def RegsDeclared (s : State) : Prop := s.reg.map Prod.fst = s.cfg.regTable.map RegEntry.addr

/-- R141: an `RO` register's stored value is its reset value. -/
def ReadOnlyAtReset (s : State) : Prop :=
  ∀ e ∈ s.cfg.regTable, e.mode = .ro → regGet s.reg e.addr = e.reset

/-- R32 item 2: memory holds words of the regions and no others, in its canonical form. -/
def MemoryInRegions (s : State) : Prop :=
  Memory.wf s.mem = true ∧ Memory.placed s.cfg.regions s.mem = true

/-- The invariant of the reachable states. -/
structure Inv (s : State) : Prop where
  wellFormed : wellFormed s.cfg = true
  phase : PhaseInSpace s
  regs : RegsDeclared s
  readOnly : ReadOnlyAtReset s
  memory : MemoryInRegions s

/-- R223: the page is the one the stored value of `PAGE_REG` selects. -/
def PageAgrees (s : State) : Prop := s.page = pageOfValue s.cfg (regGet s.reg s.cfg.pageReg)

/-- The state of an outcome that is a next state. -/
def nextState? : Host.Outcome State Fault Refusal → Option State
  | .next s => some s
  | .fault _ => none
  | .refused _ => none

/-- Whether an outcome is a next state: no fault and no refusal. -/
def goesOn (o : Host.Outcome State Fault Refusal) : Bool := (nextState? o).isSome

end Sys2Proof.Machine
end

