-- ==== Sys2Proof/Certificates/Slice0/Obligations.lean ====
section
/-! DEFINITION. The statements for the provers, in the spec's own terms: byte values as numbers, words as sums of bytes,
and every next state written out, so that one equation says what an instruction changes and that it changes nothing
else. -/

namespace Sys2Proof.Claims

open Sys2Proof Sys2Proof.Machine

/-- Byte `k` of a number, counted from the least significant end. -/
def byteOf (v k : Nat) : Byte := BitVec.ofNat 8 (v / 256 ^ k)

/-- The four data bytes of a 32-bit word, most significant first (20_memory.md R62). -/
def wireBytes (v : Word32) : List Byte := [byteOf v.toNat 3, byteOf v.toNat 2, byteOf v.toNat 1, byteOf v.toNat 0]

/-- The reply outside a read data phase (30_encoding.md R86). -/
def defaultReply (s : State) : Observation := .reply s.cfg.defaultOut

/-- The 16-bit word `T.buf[0] ++ b` (R106). -/
def written16 (s : State) (b : Byte) : Word16 := BitVec.ofNat 16 (s.tBuf.b0.toNat * 256 + b.toNat)

/-- The 32-bit word `T.buf[0] ++ T.buf[1] ++ T.buf[2] ++ b` (R112). -/
def written32 (s : State) (b : Byte) : Word32 :=
  BitVec.ofNat 32 (((s.tBuf.b0.toNat * 256 + s.tBuf.b1.toNat) * 256 + s.tBuf.b2.toNat) * 256 + b.toNat)

/-- The next word's address, `(T.addr + 1) mod 2^16` (R117). -/
def nextAddr (s : State) : Word16 := BitVec.ofNat 16 ((s.tAddr.toNat + 1) % 2 ^ 16)

/-- What the last byte of a 16-bit write changes besides the register, the page and the log (R106). -/
def afterWrite16 (s : State) (b : Byte) : State :=
  { s with tBuf := { s.tBuf with b1 := b }, tAddr := nextAddr s, tState := .data0, trace := s.trace ++ [defaultReply s] }

/-- What the last byte of a 32-bit write changes besides memory (R112). -/
def afterWrite32 (s : State) (b : Byte) : State :=
  { s with tBuf := { s.tBuf with b3 := b }, tAddr := nextAddr s, tState := .data0, trace := s.trace ++ [defaultReply s] }

/-- `PtrValue(p)` written out (42_safeload.md R163). -/
def pointerWord (s : State) (p : Page) : Nat :=
  match p with
  | .A =>
    if s.cfg.safeloadPtrShared = true then (memRead s s.cfg.ptrB.toNat .forceB).toNat
    else (memRead s s.cfg.ptrA.toNat .forceA).toNat
  | .B => (memRead s s.cfg.ptrB.toNat .forceB).toNat

/-- `SafeloadCopy(p, N)` as the loop of R162: for `i = 0, 1, ..., N - 1`, read `STAGE_p + i`, then write `D + i`, with
`D` read once before the loop. -/
def copyLoop (s : State) (p : Page) (n : Nat) : State :=
  (List.range n).foldl
    (fun u i => memWrite u (pointerWord s p + i) (memRead u ((stageOf s.cfg p).toNat + i) (force p)) (force p)) s

/-- The state after the trigger word, or any other memory word, is stored in the current page (R121, R161). -/
def afterStore (s : State) (b : Byte) : State := memWrite s s.tAddr.toNat (written32 s b) .current

/-- Two states that differ at most in `T.dir`, `T.addr` and `T.buf`. -/
def SameButTransaction (s t : State) : Prop :=
  t.cfg = s.cfg ∧ t.tState = s.tState ∧ t.reg = s.reg ∧ t.mem = s.mem ∧ t.page = s.page ∧ t.input = s.input ∧
    t.trace = s.trace

/-- The observations of a word read by the decoder: the error log if the address is unmapped, then the two bytes of the
register's read value or the four of the current page's word, 0 where unmapped (R107, R108, R113 to R116, R120, R141,
R149). The log event stands first (the model's choice, log entry 11). -/
def readObservations (s : State) (a : Word16) : List Observation :=
  if ctrlBoundary ≤ a.toNat then
    match lookup s.cfg.regTable a with
    | none => [.log (.errReadUnmapped a), .reply 0, .reply 0]
    | some e =>
      let v := (e.synth.getD (regGet s.reg a)).toNat
      [.reply (byteOf v 1), .reply (byteOf v 0)]
  else
    (if resolve s a.toNat .current = none then [.log (.errReadUnmapped a)] else []) ++
      (wireBytes (memRead s a.toNat .current)).map .reply

/-- What a safeload started by storing `v` at `a` rewrites: the word at `a` itself (R122 item 1's exception). -/
def copyRewrites (s : State) (a : Word16) (v : Word32) : Prop :=
  ∃ p, a = trigOf s.cfg p ∧ 1 ≤ v.toNat ∧ s.page = p ∧
    pointerWord (memWrite s a.toNat v .current) p ≤ a.toNat ∧
    a.toNat < pointerWord (memWrite s a.toNat v .current) p + v.toNat

end Sys2Proof.Claims

open Sys2Proof Sys2Proof.Machine Sys2Proof.Claims

/-! ### Encoding -/

/-- 30_encoding.md R89: in every context an instruction is read in, the decoder reads the instruction's own event as that
instruction, with every operand at every value. -/
def Obligations.DecodeOfEncodeGivesInstruction : Prop :=
  ∀ (i : Instr) (c : Context), i.wf = true → i.readIn c = true → decode c (encode i) = .ok i

/-- R89, R88: no event is refused but a byte in the pairs (`Data2`, `Ctrl`) and (`Data3`, `Ctrl`). -/
def Obligations.DecodeRefusesOnlyLateControlPhases : Prop :=
  ∀ (c : Context) (e : Event),
    (∀ i, decode c e ≠ .ok i) ↔
      (∃ b, e = .transmit b) ∧ c.cls = .ctrl ∧ (c.state = .data2 ∨ c.state = .data3)

/-- R81, R82, R89: sample words written out bit by bit decode to the instructions they stand for. -/
def Obligations.SampleWordsDecode : Prop :=
  decode ⟨.idle, .write, .mem⟩ (.transmit 0b00010000#8) = .ok (.caWr 0x10#8) ∧
  decode ⟨.idle, .write, .ctrl⟩ (.transmit 0b11111111#8) = .ok (.caRd 0xFF#8) ∧
  decode ⟨.subAddressHigh, .read, .mem⟩ (.transmit 0b11110000#8) = .ok (.saHi 0xF0#8) ∧
  decode ⟨.data1, .write, .ctrl⟩ (.transmit 0b00110100#8) = .ok (.wr16D1 0x34#8) ∧
  decode ⟨.data3, .write, .mem⟩ (.transmit 0b00101010#8) = .ok (.wr32D3 0x2A#8) ∧
  decode ⟨.data0, .read, .mem⟩ (.transmit 0b00000000#8) = .ok (.rd32D0 0x00#8)

/-- R87 (and the spec's own decision D3, a width for each word): a transaction that carries `k` complete words, all of one class, has `3 + 2k` bytes (`Ctrl`) or `3 + 4k` bytes
(`Mem`). -/
def Obligations.TransactionLengthByClass : Prop :=
  ∀ (p : Params) (d : Direction) (a : Word16) (words : List Word32),
    ((∀ j < words.length, ctrlBoundary ≤ (a + BitVec.ofNat 16 j).toNat) →
      (headerBytes p d a ++ burstBytes a words).length = 3 + 2 * words.length) ∧
    ((∀ j < words.length, (a + BitVec.ofNat 16 j).toNat < ctrlBoundary) →
      (headerBytes p d a ++ burstBytes a words).length = 3 + 4 * words.length)

/-! ### The step -/

/-- 00_scope.md R8, 40_protocol_decoder.md R100: a step takes the first event of the host's list and runs the instruction
it decodes to. -/
def Obligations.StepRunsDecodedInstruction : Prop :=
  ∀ (s : State) (e : Event) (rest : List Event) (i : Instr),
    wellFormed s.cfg = true → s.input = e :: rest → decode ⟨s.tState, s.tDir, classOf s.tAddr⟩ e = .ok i →
      step s = exec i { s with input := rest }

/-- The model's choice (log entry 7): a step with no event to take leaves the state as it is. -/
def Obligations.StepWithoutEventStays : Prop :=
  ∀ s : State, wellFormed s.cfg = true → s.input = [] → step s = .next s

/-- R11 (the spec's own decision D36; log entry 10 for the step): an ill-formed parameter set is refused at configuration,
and not run on. -/
def Obligations.IllFormedParametersRefused : Prop :=
  (∀ p : Params, wellFormed p = false → configure p = .refused .illFormedParameters) ∧
  (∀ s : State, wellFormed s.cfg = false → step s = .refused .illFormedParameters)

/-- R89, U3: a byte in (`Data2`, `Ctrl`) or (`Data3`, `Ctrl`) faults by name, and nothing else faults. -/
def Obligations.StepFaultsExactlyInLateControlPhases : Prop :=
  ∀ s : State, (∃ r, step s = .fault r) ↔
    wellFormed s.cfg = true ∧ (∃ b rest, s.input = .transmit b :: rest) ∧ ctrlBoundary ≤ s.tAddr.toNat ∧
      (s.tState = .data2 ∨ s.tState = .data3)

/-- R9, 60_exceptions.md R200: from a state with the invariants of the reachable states, no step faults or is refused. -/
def Obligations.ReachableStatesNeverStop : Prop :=
  ∀ s : State, Inv s → ∃ t, step s = .next t

/-- 40_protocol_decoder.md R119, which the spec derives: the decoder's complete transition function (decisions D3, D4, D5,
D34). -/
def Obligations.TransitionFunctionOfStep : Prop :=
  ∀ (s t : State) (rest : List Event), Inv s → step s = .next t →
    (∀ b, s.input = .transmit b :: rest →
      (s.tState = .idle → t.tState = .subAddressHigh) ∧
      (s.tState = .subAddressHigh → t.tState = .subAddressLow) ∧
      (s.tState = .subAddressLow → t.tState = .data0) ∧
      (s.tState = .data0 → t.tState = .data1) ∧
      (s.tState = .data1 → ctrlBoundary ≤ s.tAddr.toNat → t.tState = .data0 ∧ t.tAddr = nextAddr s) ∧
      (s.tState = .data1 → s.tAddr.toNat < ctrlBoundary → t.tState = .data2) ∧
      (s.tState = .data2 → s.tAddr.toNat < ctrlBoundary ∧ t.tState = .data3) ∧
      (s.tState = .data3 → s.tAddr.toNat < ctrlBoundary ∧ t.tState = .data0 ∧ t.tAddr = nextAddr s)) ∧
    (s.input = .selDeassert :: rest → t.tState = .idle) ∧
    (s.input = .reset :: rest → t.tState = .idle)

/-! ### The header phase -/

/-- 40_protocol_decoder.md R101: the direction becomes `Write`, whatever the identifier; another identifier is logged, before
the reply of the same step (the order of the two is the model's choice, log entry 11). -/
def Obligations.CaWrTakesDirectionWrite : Prop :=
  ∀ (b : Byte) (s : State),
    exec (.caWr b) s = .next { s with
      tDir := .write
      tState := .subAddressHigh
      trace := s.trace ++ (if b.toNat / 2 = s.cfg.chipId.toNat then [] else [.log (.warnChipId b)]) ++ [defaultReply s] }

/-- R102: the direction becomes `Read`, whatever the identifier; another identifier is logged, before the reply of the same
step (the order of the two is the model's choice, log entry 11). -/
def Obligations.CaRdTakesDirectionRead : Prop :=
  ∀ (b : Byte) (s : State),
    exec (.caRd b) s = .next { s with
      tDir := .read
      tState := .subAddressHigh
      trace := s.trace ++ (if b.toNat / 2 = s.cfg.chipId.toNat then [] else [.log (.warnChipId b)]) ++ [defaultReply s] }

/-- R103: the high byte is taken, the low byte stays. -/
def Obligations.SaHiSetsHighAddressByte : Prop :=
  ∀ (b : Byte) (s : State),
    exec (.saHi b) s = .next { s with
      tAddr := BitVec.ofNat 16 (b.toNat * 256 + s.tAddr.toNat % 256)
      tState := .subAddressLow
      trace := s.trace ++ [defaultReply s] }

/-- R104 (whose tag is the decision D3: nothing is stored for the word's width): the low byte is taken, the high byte
stays. -/
def Obligations.SaLoSetsLowAddressByte : Prop :=
  ∀ (b : Byte) (s : State),
    exec (.saLo b) s = .next { s with
      tAddr := BitVec.ofNat 16 (s.tAddr.toNat / 256 * 256 + b.toNat)
      tState := .data0
      trace := s.trace ++ [defaultReply s] }

/-! ### Writes -/

/-- R105, R109, R110, R111: a data byte of a write that is not the word's last goes to its place in `T.buf`, and nothing
else happens. -/
def Obligations.EarlyWriteBytesOnlyFillBuffer : Prop :=
  ∀ (b : Byte) (s : State),
    exec (.wr16D0 b) s = .next { s with
      tBuf := { s.tBuf with b0 := b }, tState := .data1, trace := s.trace ++ [defaultReply s] } ∧
    exec (.wr32D0 b) s = .next { s with
      tBuf := { s.tBuf with b0 := b }, tState := .data1, trace := s.trace ++ [defaultReply s] } ∧
    exec (.wr32D1 b) s = .next { s with
      tBuf := { s.tBuf with b1 := b }, tState := .data2, trace := s.trace ++ [defaultReply s] } ∧
    exec (.wr32D2 b) s = .next { s with
      tBuf := { s.tBuf with b2 := b }, tState := .data3, trace := s.trace ++ [defaultReply s] }

/-- 41_register_bank.md R144: a committed write to a read-only register changes no register and no page, and logs
nothing. The address's advance mod 2^16, which wraps after 0xFFFF, is the spec's own decision D4 (R117, log entry 13). -/
def Obligations.WriteToReadOnlyRegisterIsIgnored : Prop :=
  ∀ (b : Byte) (s : State) (e : RegEntry), ctrlBoundary ≤ s.tAddr.toNat →
    lookup s.cfg.regTable s.tAddr = some e → e.mode = .ro →
    exec (.wr16D1 b) s = .next (afterWrite16 s b)

/-- R149: at a control address with no register a read logs the error and gives 0, a write changes nothing and logs nothing,
and the decoder keeps going in both cases: after the word's last byte the address has advanced. The log event stands before
the reply of the same step (the model's choice, log entry 11); the word is read once, at its first byte, and the read goes
on to the next address mod 2^16 (the spec's own decisions D4, D5 and D6, log entry 13). -/
def Obligations.UnmappedControlAddressReadsZeroIgnoresWrites : Prop :=
  ∀ (b b' : Byte) (s : State), ctrlBoundary ≤ s.tAddr.toNat → lookup s.cfg.regTable s.tAddr = none →
    exec (.wr16D1 b) s = .next (afterWrite16 s b) ∧
    ∃ t, exec (.rd16D0 b) s = .next t ∧
      t = { s with
        tBuf := { s.tBuf with b0 := 0, b1 := 0 }
        tState := .data1
        trace := s.trace ++ [.log (.errReadUnmapped s.tAddr), .reply 0] } ∧
      exec (.rd16D1 b') t = .next { t with
        tAddr := nextAddr s, tState := .data0, trace := t.trace ++ [.reply 0] }

/-- R106, R145: a committed write to an `RW` register stores the value, in that register only. The address's advance mod 2^16,
which wraps after 0xFFFF, is the spec's own decision D4 (R117, log entry 13). -/
def Obligations.WriteToReadWriteRegisterStores : Prop :=
  ∀ (b : Byte) (s : State) (e : RegEntry), ctrlBoundary ≤ s.tAddr.toNat →
    lookup s.cfg.regTable s.tAddr = some e → e.mode = .rw →
    ∃ g, exec (.wr16D1 b) s = .next { afterWrite16 s b with reg := g } ∧
      regGet g s.tAddr = written16 s b ∧ ∀ a, a ≠ s.tAddr → regGet g a = regGet s.reg a

/-- R146, R148: a committed write to the page-select register stores the value and sets the page to bit `PAGE_BIT`
(the spec's own decisions D9 and D11). The address's advance mod 2^16, which wraps after 0xFFFF, is its decision D4 (R117,
log entry 13). -/
def Obligations.WriteToPageSelectSetsPage : Prop :=
  ∀ (b : Byte) (s : State) (e : RegEntry), ctrlBoundary ≤ s.tAddr.toNat →
    lookup s.cfg.regTable s.tAddr = some e → e.mode = .rwse → e.tag = some .pageSelect →
    ∃ g, exec (.wr16D1 b) s = .next { afterWrite16 s b with
        reg := g
        page := if (written16 s b).toNat / 2 ^ s.cfg.pageBit.val % 2 = 0 then .A else .B } ∧
      regGet g s.tAddr = written16 s b ∧ ∀ a, a ≠ s.tAddr → regGet g a = regGet s.reg a

/-- R146, R147: a committed write to a backup-domain register stores the value and logs the hook
(the spec's own decisions D11 and D16), before the reply (log entry 11). The address's advance mod 2^16, which wraps after
0xFFFF, is the spec's decision D4 (R117, log entry 13). -/
def Obligations.WriteToBackupDomainLogsHook : Prop :=
  ∀ (b : Byte) (s : State) (e : RegEntry), ctrlBoundary ≤ s.tAddr.toNat →
    lookup s.cfg.regTable s.tAddr = some e → e.mode = .rwse → e.tag = some .backupDomain →
    ∃ g, exec (.wr16D1 b) s = .next { afterWrite16 s b with
        reg := g
        trace := s.trace ++ [.log (.hookBackup s.tAddr (written16 s b)), defaultReply s] } ∧
      regGet g s.tAddr = written16 s b ∧ ∀ a, a ≠ s.tAddr → regGet g a = regGet s.reg a

/-- R58, R112: a committed write to an unmapped memory address that is no trigger changes nothing but the transaction
state, and logs nothing. -/
def Obligations.WriteToUnmappedMemoryIsIgnored : Prop :=
  ∀ (b : Byte) (s : State), s.tAddr.toNat < ctrlBoundary → resolve s s.tAddr.toNat .current = none →
    s.tAddr ≠ s.cfg.trigA → s.tAddr ≠ s.cfg.trigB →
    exec (.wr32D3 b) s = .next (afterWrite32 s b)

/-- R58, R112, R121, 42_safeload.md R160, R161, R164: a committed write to a mapped memory address that starts no safeload (no
trigger address, or a count of zero) stores the word in the current page, and every word at another place stays. That a
trigger word too lands in the current page is the spec's own decision D18, that nothing else triggers its D17 (log
entry 17), and the address's advance mod 2^16 its D4 (log entry 13). -/
def Obligations.WriteStoresWordAndNothingElse : Prop :=
  ∀ (b : Byte) (s : State), s.tAddr.toNat < ctrlBoundary → Memory.wf s.mem = true →
    resolve s s.tAddr.toNat .current ≠ none →
    ((s.tAddr ≠ s.cfg.trigA ∧ s.tAddr ≠ s.cfg.trigB) ∨ (written32 s b).toNat = 0) →
    ∃ m, exec (.wr32D3 b) s = .next { afterWrite32 s b with mem := m } ∧
      memRead { s with mem := m } s.tAddr.toNat .current = written32 s b ∧
      ∀ (a : Nat) (o : Override), resolve s a o ≠ resolve s s.tAddr.toNat .current →
        memRead { s with mem := m } a o = memRead s a o

/-- R160 to R163, R167 to R170: a committed write of `N ≥ 1` to `TRIG_p` stores the count in the current page and then
leaves the memory the whole loop of `N` iterations leaves, whatever ranges overlap; the machine runs only the iterations
R170 names. The loop rests on the spec's own decisions D17 to D23. -/
def Obligations.TriggerRunsTheWholeCopyLoop : Prop :=
  ∀ (b : Byte) (s : State) (p : Page), wellFormed s.cfg = true → s.tAddr = trigOf s.cfg p →
    1 ≤ (written32 s b).toNat →
    exec (.wr32D3 b) s = .next { afterWrite32 s b with
      mem := (copyLoop (afterStore s b) p (written32 s b).toNat).mem }

/-- R162, R165, R166, R172: where the source and destination ranges do not overlap, the copy moves exactly `N` words to
`[D, D + N)` of the trigger's page, and every other word stays (the spec's own decisions D18 to D20, D22, D23). -/
def Obligations.DisjointCopyMovesExactlyNWords : Prop :=
  ∀ (b : Byte) (s : State) (p : Page), wellFormed s.cfg = true → Memory.wf s.mem = true →
    s.tAddr = trigOf s.cfg p → 1 ≤ (written32 s b).toNat →
    let n := (written32 s b).toNat
    let d := pointerWord (afterStore s b) p
    let src := (stageOf s.cfg p).toNat
    (src + n ≤ d ∨ d + n ≤ src) →
    ∃ m, exec (.wr32D3 b) s = .next { afterWrite32 s b with mem := m } ∧
      (∀ i < n, resolve s (d + i) (force p) ≠ none →
        memRead { s with mem := m } (d + i) (force p) = memRead (afterStore s b) (src + i) (force p)) ∧
      (∀ (a : Nat) (o : Override), (∀ i < n, resolve s a o ≠ none → resolve s a o ≠ resolve s (d + i) (force p)) →
        memRead { s with mem := m } a o = memRead (afterStore s b) a o)

/-! ### Reads -/

/-- R107, R141, R142, 20_memory.md R61: the first byte of a read of a declared register latches its synthesized value, or
else its stored value, and replies with the high byte; nothing else changes. The word is read once, here: the spec's own
decision D6; the synthesized value is that of D12. -/
def Obligations.Rd16D0LatchesRegister : Prop :=
  ∀ (b : Byte) (s : State) (e : RegEntry), ctrlBoundary ≤ s.tAddr.toNat → lookup s.cfg.regTable s.tAddr = some e →
    let v := (e.synth.getD (regGet s.reg s.tAddr)).toNat
    exec (.rd16D0 b) s = .next { s with
      tBuf := { s.tBuf with b0 := byteOf v 1, b1 := byteOf v 0 }
      tState := .data1
      trace := s.trace ++ [.reply (byteOf v 1)] }

/-- R113, R120: the first byte of a memory read latches the word of the current page, or 0 with an error log at an unmapped
address, and replies with its most significant byte; nothing else changes. The word is read once, here (the spec's own
decision D6, log entry 13); the log event stands before the reply of the same step (the model's choice, log entry 11). -/
def Obligations.Rd32D0LatchesWord : Prop :=
  ∀ (b : Byte) (s : State), s.tAddr.toNat < ctrlBoundary →
    let v := (memRead s s.tAddr.toNat .current).toNat
    exec (.rd32D0 b) s = .next { s with
      tBuf := ⟨byteOf v 3, byteOf v 2, byteOf v 1, byteOf v 0⟩
      tState := .data1
      trace := s.trace ++
        (if resolve s s.tAddr.toNat .current = none then [.log (.errReadUnmapped s.tAddr)] else []) ++
        [.reply (byteOf v 3)] }

/-- R114, R115: the middle bytes of a memory read reply from `T.buf`, and nothing else changes but the phase. -/
def Obligations.MiddleReadBytesReplyFromBuffer : Prop :=
  ∀ (b : Byte) (s : State),
    exec (.rd32D1 b) s = .next { s with tState := .data2, trace := s.trace ++ [.reply s.tBuf.b1] } ∧
    exec (.rd32D2 b) s = .next { s with tState := .data3, trace := s.trace ++ [.reply s.tBuf.b2] }

/-- R108, R116, R117: a read's last byte replies from `T.buf` and moves the address on by one word mod 2^16, so that a read
burst goes on (the spec's own decisions D4 and D5). -/
def Obligations.LastReadBytesReplyAndAdvance : Prop :=
  ∀ (b : Byte) (s : State),
    exec (.rd16D1 b) s = .next { s with
      tAddr := nextAddr s, tState := .data0, trace := s.trace ++ [.reply s.tBuf.b1] } ∧
    exec (.rd32D3 b) s = .next { s with
      tAddr := nextAddr s, tState := .data0, trace := s.trace ++ [.reply s.tBuf.b3] }

/-! ### Signals and exports -/

/-- 43_host_interfaces.md R180. -/
def Obligations.SelAssertChangesNothing : Prop :=
  ∀ s : State, exec .selAssert s = .next s

/-- R181: deselection returns the decoder to `Idle` and changes nothing else. -/
def Obligations.SelDeassertReturnsToIdle : Prop :=
  ∀ s : State, exec .selDeassert s = .next { s with tState := .idle }

/-- 70_reset_and_hazards.md R221 to R224, 41_register_bank.md R150: reset gives every declared register its reset value and
no other register a new one, sets the page by `PAGE_ON_RESET`, forces `Idle`, keeps memory and logs nothing (the spec's own decisions
D10 and D25). -/
def Obligations.ResetRestoresRegistersAndKeepsMemory : Prop :=
  ∀ s : State, wellFormed s.cfg = true →
    ∃ g pageEntry, lookup s.cfg.regTable s.cfg.pageReg = some pageEntry ∧
      exec .reset s = .next { s with
        reg := g
        page := match s.cfg.pageOnReset with
          | .fromRegisterReset => if pageEntry.reset.toNat / 2 ^ s.cfg.pageBit.val % 2 = 0 then .A else .B
          | .unchanged => s.page
        tState := .idle } ∧
      (∀ e ∈ s.cfg.regTable, regGet g e.addr = e.reset) ∧
      (∀ a, (∀ e ∈ s.cfg.regTable, e.addr ≠ a) → regGet g a = regGet s.reg a)

/-- R150, R24: in a state whose bank holds exactly the declared registers, reset leaves the bank as construction does
(construction: the spec's own decision D15). -/
def Obligations.ResetLeavesConstructionRegisters : Prop :=
  ∀ s : State, wellFormed s.cfg = true → RegsDeclared s →
    ∃ t, exec .reset s = .next t ∧ t.reg = (State.construct s.cfg).reg ∧ t.mem = s.mem

/-- 43_host_interfaces.md R184, R185: a bulk read returns the words of the asked page at consecutive natural-number
addresses, 0 where an address resolves to none, sends them to the sink most significant byte first, and changes
nothing (the spec's own decision D29). -/
def Obligations.BulkReadReturnsPageWords : Prop :=
  ∀ (start : Word16) (count : Nat) (page : Page) (s : State),
    let ws := (List.range count).map fun k => memRead s (start.toNat + k) (force page)
    exec (.bulkRead start count page .ok) s =
      .next { s with trace := s.trace ++ [.bulkRead ws (ws.flatMap wireBytes)] }

/-- R186, R151: a register export lists the address and read value of every declared register and no other, in ascending
order of address, and changes nothing (the spec's own decision D30). -/
def Obligations.RegExportListsDeclaredRegisters : Prop :=
  ∀ s : State, wellFormed s.cfg = true →
    ∃ pairs, exec (.regExport .ok) s = .next { s with trace := s.trace ++ [.regExport pairs] } ∧
      pairs.Pairwise (fun x y => x.1.toNat < y.1.toNat) ∧
      ∀ a v, (a, v) ∈ pairs ↔ ∃ e ∈ s.cfg.regTable, e.addr = a ∧ v = e.synth.getD (regGet s.reg a)

/-- R187: an export whose sink fails gives the failure to the caller and changes nothing (the spec's own decision D31). -/
def Obligations.FailedExportChangesNothing : Prop :=
  ∀ (start : Word16) (count : Nat) (page : Page) (message : String) (s : State),
    exec (.bulkRead start count page (.err message)) s =
      .next { s with trace := s.trace ++ [.exportFailed message] } ∧
    exec (.regExport (.err message)) s = .next { s with trace := s.trace ++ [.exportFailed message] }

/-! ### Address resolution and construction -/

/-- 20_memory.md R54, R55, R56: an address resolves to a place exactly if it is below `CTRL_BOUNDARY` and in the place's
region's window, at index `addr - base`, in the page of the override. -/
def Obligations.ResolveFindsTheWindow : Prop :=
  ∀ (s : State) (addr : Nat) (ovr : Override) (q : Place), wellFormed s.cfg = true →
    (resolve s addr ovr = some q ↔
      addr < ctrlBoundary ∧
      (∃ g, s.cfg.regions[q.region]? = some g ∧ g.base ≤ addr ∧ addr < g.base + g.size ∧ q.index = addr - g.base) ∧
      q.page = (match ovr with | .current => s.page | .forceA => .A | .forceB => .B))

/-- 70_reset_and_hazards.md R220: the state at construction, for every well-formed parameter set (the spec's own decisions
D14 and D15). -/
def Obligations.ConstructionStateByParameters : Prop :=
  ∀ p : Params, wellFormed p = true →
    ∃ t pageEntry, configure p = .next t ∧ lookup p.regTable p.pageReg = some pageEntry ∧
      t.cfg = p ∧ t.tState = .idle ∧ t.mem = p.memInit ∧
      (∀ e ∈ p.regTable, regGet t.reg e.addr = e.reset) ∧
      t.page = (if pageEntry.reset.toNat / 2 ^ p.pageBit.val % 2 = 0 then .A else .B)

/-! ### Invariants -/

/-- 10_state.md R24, R32, 41_register_bank.md R141: every step keeps the invariant of the reachable states. -/
def Obligations.StepKeepsStateInvariant : Prop :=
  ∀ s t : State, Inv s → step s = .next t → Inv t

/-- R31, R32: the invariant holds at construction, for every well-formed parameter set. -/
def Obligations.ConstructionHasStateInvariant : Prop :=
  ∀ p : Params, wellFormed p = true → Inv (State.construct p)

/-- The invariant holds at the model's reset state (log entry 2: its parameter set is the model's choice). -/
def Obligations.ResetStateHasStateInvariant : Prop := Inv State.reset

/-- 70_reset_and_hazards.md R223, R26: with `PAGE_ON_RESET = FromRegisterReset`, every step keeps the page in agreement with
the stored value of the page-select register; construction sets it so
(the spec's own decisions D9 and D10). -/
def Obligations.StepKeepsPageInAgreement : Prop :=
  (∀ p : Params, wellFormed p = true → PageAgrees (State.construct p)) ∧
  ∀ s t : State, s.cfg.pageOnReset = .fromRegisterReset → PageAgrees s → step s = .next t → PageAgrees t

/-! ### Whole-machine rules -/

/-- 10_state.md R25, R29, 42_safeload.md R171: memory changes only in a step that takes the last byte of a 32-bit write. -/
def Obligations.OnlyMemoryCommitsChangeMemory : Prop :=
  ∀ s t : State, step s = .next t → t.mem ≠ s.mem →
    (∃ b rest, s.input = .transmit b :: rest) ∧ s.tState = .data3 ∧ s.tDir = .write ∧ s.tAddr.toNat < ctrlBoundary

/-- R24, R29: a register's value changes only in a step that takes the last byte of a 16-bit write to that register, which
is declared and not read-only, or in a reset. -/
def Obligations.OnlyCommitsAndResetChangeRegisters : Prop :=
  ∀ (s t : State) (a : Word16), step s = .next t → regGet t.reg a ≠ regGet s.reg a →
    (∃ rest, s.input = .reset :: rest) ∨
    ((∃ b rest, s.input = .transmit b :: rest) ∧ s.tState = .data1 ∧ s.tDir = .write ∧ s.tAddr = a ∧
      ctrlBoundary ≤ a.toNat ∧ ∃ e, lookup s.cfg.regTable a = some e ∧ e.mode ≠ .ro)

/-- R26, R29: the page changes only in a step that takes the last byte of a write to `PAGE_REG`, or in a reset with
`PAGE_ON_RESET = FromRegisterReset`. -/
def Obligations.OnlyPageSelectAndResetChangePage : Prop :=
  ∀ s t : State, step s = .next t → t.page ≠ s.page →
    ((∃ rest, s.input = .reset :: rest) ∧ s.cfg.pageOnReset = .fromRegisterReset) ∨
    ((∃ b rest, s.input = .transmit b :: rest) ∧ s.tState = .data1 ∧ s.tDir = .write ∧ s.tAddr = s.cfg.pageReg)

/-- 60_exceptions.md R205, 10_state.md R30: a step takes at most one event, keeps the parameters, and appends to what the
host observes at most one log event and at most one reply or export result, the log event first (the spec's
own decisions D16 and D26; log entries 3 and 11). -/
def Obligations.StepObservesAtMostOneLogAndOneResult : Prop :=
  ∀ s t : State, step s = .next t →
    t.cfg = s.cfg ∧ t.input = s.input.tail ∧
    ∃ (logs : List LogEvent) (results : List Observation), t.trace = s.trace ++ logs.map .log ++ results ∧
      logs.length ≤ 1 ∧ results.length ≤ 1 ∧ ∀ e, .log e ∉ results

/-- 10_state.md R31, 40_protocol_decoder.md R122 item 3: in `Idle`, `T.dir`, `T.addr` and `T.buf` are unobservable: two
states that differ in these alone go through the same observations, registers, memory and page for any number of
steps. The spec derives it (D38). -/
def Obligations.IdleHidesTransactionFields : Prop :=
  ∀ (s s' : State) (n : Nat) (t : State), SameButTransaction s s' → s.tState = .idle → stepN n s = .next t →
    ∃ t', stepN n s' = .next t' ∧ t'.trace = t.trace ∧ t'.reg = t.reg ∧ t'.mem = t.mem ∧ t'.page = t.page ∧
      t'.tState = t.tState

/-! ### Transactions -/

/-- R122 item 1: a write transaction of `V` at a mapped memory address, then a read transaction there, replies the four
bytes of `V`, most significant first, unless the copy the write starts rewrites that word
(derived by the spec; decisions D5, D6, D17 to D23). -/
def Obligations.MemoryWriteThenReadReplies : Prop :=
  ∀ (s : State) (a : Word16) (v : Word32), Inv s → s.tState = .idle →
    resolve s a.toNat .current ≠ none → ¬ copyRewrites s a v →
    ∃ t, runEvents s (writeTransaction s.cfg a [v] ++ readTransaction s.cfg a 1) = .next t ∧
      t.trace = s.trace ++ List.replicate 10 (defaultReply s) ++ (wireBytes v).map .reply ∧
      t.tState = .idle ∧ t.page = s.page ∧ t.reg = s.reg

/-- R122 item 2: a write transaction of `V` to a declared register, then a read transaction of it, replies the two bytes of
`V` for an `RW` or `RWSE` register, and of the synthesized or reset value for an `RO` one
(derived by the spec; decisions D5, D6, D11, D12, D16). A hook's log event stands before the reply of the committing byte
(the model's choice, log entry 11). -/
def Obligations.RegisterWriteThenReadReplies : Prop :=
  ∀ (s : State) (e : RegEntry) (v : Word16), Inv s → s.tState = .idle → e ∈ s.cfg.regTable →
    let r := (if e.mode = .ro then e.synth.getD e.reset else v).toNat
    ∃ t, runEvents s (writeTransaction s.cfg e.addr [v.setWidth 32] ++ readTransaction s.cfg e.addr 1) = .next t ∧
      t.trace = s.trace ++ List.replicate 4 (defaultReply s) ++
        (if e.tag = some .backupDomain then [.log (.hookBackup e.addr v)] else []) ++
        List.replicate 4 (defaultReply s) ++ [.reply (byteOf r 1), .reply (byteOf r 0)] ∧
      t.tState = .idle ∧ t.mem = s.mem

/-- R87, R118, R119: a write burst of any words, from any address, is taken word by word at each word's own width: after
its last byte the decoder waits for the next word, at the address one past the last word's mod 2^16 (the spec's own
decisions D3, D4, D34). -/
def Obligations.WriteBurstAdvancesWordByWord : Prop :=
  ∀ (words : List Word32) (s : State), wellFormed s.cfg = true → s.tState = .data0 → s.tDir = .write →
    ∃ t, runEvents s (transmits (burstBytes s.tAddr words)) = .next t ∧
      t.tState = .data0 ∧ t.tDir = .write ∧ t.tAddr = BitVec.ofNat 16 (s.tAddr.toNat + words.length)

/-- R107, R108, R113 to R118, R120: a read burst of `k` words, from any address, replies word after word: two bytes of each
declared register's read value, four of each memory word of the current page, 0 at an unmapped address; every word has
its own width and the address wraps mod 2^16, so a burst may cross `0xF000` and `0xFFFF`. It changes no register, no
memory and no page (the spec's own decisions D3 to D6, D12 and D35). An error log stands before the reply of the word's
first byte (the model's choice, log entry 11). -/
def Obligations.ReadBurstRepliesCurrentPage : Prop :=
  ∀ (k : Nat) (s : State), wellFormed s.cfg = true → s.tState = .data0 → s.tDir = .read →
    ∃ t, runEvents s (transmits (fillerBytes s.tAddr k)) = .next t ∧
      t.trace = s.trace ++ (List.range k).flatMap (fun j => readObservations s (BitVec.ofNat 16 (s.tAddr.toNat + j))) ∧
      t.reg = s.reg ∧ t.mem = s.mem ∧ t.page = s.page ∧ t.tState = .data0 ∧ t.tDir = .read ∧
      t.tAddr = BitVec.ofNat 16 (s.tAddr.toNat + k)
end

