-- ==== Sys2Proof/Laws/State.lean ====
section
/-! SUPPORT. One lemma per field per update of the state. -/

namespace Sys2Proof.Machine

open Sys2Proof

/-! ### `State.setPhase` -/

@[simp] theorem State.setPhase_cfg (s : State) (x : DecoderState) : (s.setPhase x).cfg = s.cfg := rfl
@[simp] theorem State.setPhase_tState (s : State) (x : DecoderState) : (s.setPhase x).tState = x := rfl
@[simp] theorem State.setPhase_tDir (s : State) (x : DecoderState) : (s.setPhase x).tDir = s.tDir := rfl
@[simp] theorem State.setPhase_tAddr (s : State) (x : DecoderState) : (s.setPhase x).tAddr = s.tAddr := rfl
@[simp] theorem State.setPhase_tBuf (s : State) (x : DecoderState) : (s.setPhase x).tBuf = s.tBuf := rfl
@[simp] theorem State.setPhase_reg (s : State) (x : DecoderState) : (s.setPhase x).reg = s.reg := rfl
@[simp] theorem State.setPhase_mem (s : State) (x : DecoderState) : (s.setPhase x).mem = s.mem := rfl
@[simp] theorem State.setPhase_page (s : State) (x : DecoderState) : (s.setPhase x).page = s.page := rfl
@[simp] theorem State.setPhase_input (s : State) (x : DecoderState) : (s.setPhase x).input = s.input := rfl
@[simp] theorem State.setPhase_trace (s : State) (x : DecoderState) : (s.setPhase x).trace = s.trace := rfl

/-! ### `State.setDir` -/

@[simp] theorem State.setDir_cfg (s : State) (d : Direction) : (s.setDir d).cfg = s.cfg := rfl
@[simp] theorem State.setDir_tState (s : State) (d : Direction) : (s.setDir d).tState = s.tState := rfl
@[simp] theorem State.setDir_tDir (s : State) (d : Direction) : (s.setDir d).tDir = d := rfl
@[simp] theorem State.setDir_tAddr (s : State) (d : Direction) : (s.setDir d).tAddr = s.tAddr := rfl
@[simp] theorem State.setDir_tBuf (s : State) (d : Direction) : (s.setDir d).tBuf = s.tBuf := rfl
@[simp] theorem State.setDir_reg (s : State) (d : Direction) : (s.setDir d).reg = s.reg := rfl
@[simp] theorem State.setDir_mem (s : State) (d : Direction) : (s.setDir d).mem = s.mem := rfl
@[simp] theorem State.setDir_page (s : State) (d : Direction) : (s.setDir d).page = s.page := rfl
@[simp] theorem State.setDir_input (s : State) (d : Direction) : (s.setDir d).input = s.input := rfl
@[simp] theorem State.setDir_trace (s : State) (d : Direction) : (s.setDir d).trace = s.trace := rfl

/-! ### `State.setAddr` -/

@[simp] theorem State.setAddr_cfg (s : State) (a : Word16) : (s.setAddr a).cfg = s.cfg := rfl
@[simp] theorem State.setAddr_tState (s : State) (a : Word16) : (s.setAddr a).tState = s.tState := rfl
@[simp] theorem State.setAddr_tDir (s : State) (a : Word16) : (s.setAddr a).tDir = s.tDir := rfl
@[simp] theorem State.setAddr_tAddr (s : State) (a : Word16) : (s.setAddr a).tAddr = a := rfl
@[simp] theorem State.setAddr_tBuf (s : State) (a : Word16) : (s.setAddr a).tBuf = s.tBuf := rfl
@[simp] theorem State.setAddr_reg (s : State) (a : Word16) : (s.setAddr a).reg = s.reg := rfl
@[simp] theorem State.setAddr_mem (s : State) (a : Word16) : (s.setAddr a).mem = s.mem := rfl
@[simp] theorem State.setAddr_page (s : State) (a : Word16) : (s.setAddr a).page = s.page := rfl
@[simp] theorem State.setAddr_input (s : State) (a : Word16) : (s.setAddr a).input = s.input := rfl
@[simp] theorem State.setAddr_trace (s : State) (a : Word16) : (s.setAddr a).trace = s.trace := rfl

/-! ### `State.setBuf` -/

@[simp] theorem State.setBuf_cfg (s : State) (u : Buf) : (s.setBuf u).cfg = s.cfg := rfl
@[simp] theorem State.setBuf_tState (s : State) (u : Buf) : (s.setBuf u).tState = s.tState := rfl
@[simp] theorem State.setBuf_tDir (s : State) (u : Buf) : (s.setBuf u).tDir = s.tDir := rfl
@[simp] theorem State.setBuf_tAddr (s : State) (u : Buf) : (s.setBuf u).tAddr = s.tAddr := rfl
@[simp] theorem State.setBuf_tBuf (s : State) (u : Buf) : (s.setBuf u).tBuf = u := rfl
@[simp] theorem State.setBuf_reg (s : State) (u : Buf) : (s.setBuf u).reg = s.reg := rfl
@[simp] theorem State.setBuf_mem (s : State) (u : Buf) : (s.setBuf u).mem = s.mem := rfl
@[simp] theorem State.setBuf_page (s : State) (u : Buf) : (s.setBuf u).page = s.page := rfl
@[simp] theorem State.setBuf_input (s : State) (u : Buf) : (s.setBuf u).input = s.input := rfl
@[simp] theorem State.setBuf_trace (s : State) (u : Buf) : (s.setBuf u).trace = s.trace := rfl

/-! ### `State.setReg` -/

@[simp] theorem State.setReg_cfg (s : State) (g : List (Word16 × Word16)) : (s.setReg g).cfg = s.cfg := rfl
@[simp] theorem State.setReg_tState (s : State) (g : List (Word16 × Word16)) : (s.setReg g).tState = s.tState := rfl
@[simp] theorem State.setReg_tDir (s : State) (g : List (Word16 × Word16)) : (s.setReg g).tDir = s.tDir := rfl
@[simp] theorem State.setReg_tAddr (s : State) (g : List (Word16 × Word16)) : (s.setReg g).tAddr = s.tAddr := rfl
@[simp] theorem State.setReg_tBuf (s : State) (g : List (Word16 × Word16)) : (s.setReg g).tBuf = s.tBuf := rfl
@[simp] theorem State.setReg_reg (s : State) (g : List (Word16 × Word16)) : (s.setReg g).reg = g := rfl
@[simp] theorem State.setReg_mem (s : State) (g : List (Word16 × Word16)) : (s.setReg g).mem = s.mem := rfl
@[simp] theorem State.setReg_page (s : State) (g : List (Word16 × Word16)) : (s.setReg g).page = s.page := rfl
@[simp] theorem State.setReg_input (s : State) (g : List (Word16 × Word16)) : (s.setReg g).input = s.input := rfl
@[simp] theorem State.setReg_trace (s : State) (g : List (Word16 × Word16)) : (s.setReg g).trace = s.trace := rfl

/-! ### `State.setMem` -/

@[simp] theorem State.setMem_cfg (s : State) (m : Memory) : (s.setMem m).cfg = s.cfg := rfl
@[simp] theorem State.setMem_tState (s : State) (m : Memory) : (s.setMem m).tState = s.tState := rfl
@[simp] theorem State.setMem_tDir (s : State) (m : Memory) : (s.setMem m).tDir = s.tDir := rfl
@[simp] theorem State.setMem_tAddr (s : State) (m : Memory) : (s.setMem m).tAddr = s.tAddr := rfl
@[simp] theorem State.setMem_tBuf (s : State) (m : Memory) : (s.setMem m).tBuf = s.tBuf := rfl
@[simp] theorem State.setMem_reg (s : State) (m : Memory) : (s.setMem m).reg = s.reg := rfl
@[simp] theorem State.setMem_mem (s : State) (m : Memory) : (s.setMem m).mem = m := rfl
@[simp] theorem State.setMem_page (s : State) (m : Memory) : (s.setMem m).page = s.page := rfl
@[simp] theorem State.setMem_input (s : State) (m : Memory) : (s.setMem m).input = s.input := rfl
@[simp] theorem State.setMem_trace (s : State) (m : Memory) : (s.setMem m).trace = s.trace := rfl

/-! ### `State.setPage` -/

@[simp] theorem State.setPage_cfg (s : State) (p : Page) : (s.setPage p).cfg = s.cfg := rfl
@[simp] theorem State.setPage_tState (s : State) (p : Page) : (s.setPage p).tState = s.tState := rfl
@[simp] theorem State.setPage_tDir (s : State) (p : Page) : (s.setPage p).tDir = s.tDir := rfl
@[simp] theorem State.setPage_tAddr (s : State) (p : Page) : (s.setPage p).tAddr = s.tAddr := rfl
@[simp] theorem State.setPage_tBuf (s : State) (p : Page) : (s.setPage p).tBuf = s.tBuf := rfl
@[simp] theorem State.setPage_reg (s : State) (p : Page) : (s.setPage p).reg = s.reg := rfl
@[simp] theorem State.setPage_mem (s : State) (p : Page) : (s.setPage p).mem = s.mem := rfl
@[simp] theorem State.setPage_page (s : State) (p : Page) : (s.setPage p).page = p := rfl
@[simp] theorem State.setPage_input (s : State) (p : Page) : (s.setPage p).input = s.input := rfl
@[simp] theorem State.setPage_trace (s : State) (p : Page) : (s.setPage p).trace = s.trace := rfl

/-! ### `State.setInput` -/

@[simp] theorem State.setInput_cfg (s : State) (l : List Event) : (s.setInput l).cfg = s.cfg := rfl
@[simp] theorem State.setInput_tState (s : State) (l : List Event) : (s.setInput l).tState = s.tState := rfl
@[simp] theorem State.setInput_tDir (s : State) (l : List Event) : (s.setInput l).tDir = s.tDir := rfl
@[simp] theorem State.setInput_tAddr (s : State) (l : List Event) : (s.setInput l).tAddr = s.tAddr := rfl
@[simp] theorem State.setInput_tBuf (s : State) (l : List Event) : (s.setInput l).tBuf = s.tBuf := rfl
@[simp] theorem State.setInput_reg (s : State) (l : List Event) : (s.setInput l).reg = s.reg := rfl
@[simp] theorem State.setInput_mem (s : State) (l : List Event) : (s.setInput l).mem = s.mem := rfl
@[simp] theorem State.setInput_page (s : State) (l : List Event) : (s.setInput l).page = s.page := rfl
@[simp] theorem State.setInput_input (s : State) (l : List Event) : (s.setInput l).input = l := rfl
@[simp] theorem State.setInput_trace (s : State) (l : List Event) : (s.setInput l).trace = s.trace := rfl

/-! ### `State.emit` -/

@[simp] theorem State.emit_cfg (s : State) (o : Observation) : (s.emit o).cfg = s.cfg := rfl
@[simp] theorem State.emit_tState (s : State) (o : Observation) : (s.emit o).tState = s.tState := rfl
@[simp] theorem State.emit_tDir (s : State) (o : Observation) : (s.emit o).tDir = s.tDir := rfl
@[simp] theorem State.emit_tAddr (s : State) (o : Observation) : (s.emit o).tAddr = s.tAddr := rfl
@[simp] theorem State.emit_tBuf (s : State) (o : Observation) : (s.emit o).tBuf = s.tBuf := rfl
@[simp] theorem State.emit_reg (s : State) (o : Observation) : (s.emit o).reg = s.reg := rfl
@[simp] theorem State.emit_mem (s : State) (o : Observation) : (s.emit o).mem = s.mem := rfl
@[simp] theorem State.emit_page (s : State) (o : Observation) : (s.emit o).page = s.page := rfl
@[simp] theorem State.emit_input (s : State) (o : Observation) : (s.emit o).input = s.input := rfl
@[simp] theorem State.emit_trace (s : State) (o : Observation) : (s.emit o).trace = s.trace ++ [o] := rfl

/-! ### `State.logEvent` -/

@[simp] theorem State.logEvent_cfg (s : State) (e : LogEvent) : (s.logEvent e).cfg = s.cfg := rfl
@[simp] theorem State.logEvent_tState (s : State) (e : LogEvent) : (s.logEvent e).tState = s.tState := rfl
@[simp] theorem State.logEvent_tDir (s : State) (e : LogEvent) : (s.logEvent e).tDir = s.tDir := rfl
@[simp] theorem State.logEvent_tAddr (s : State) (e : LogEvent) : (s.logEvent e).tAddr = s.tAddr := rfl
@[simp] theorem State.logEvent_tBuf (s : State) (e : LogEvent) : (s.logEvent e).tBuf = s.tBuf := rfl
@[simp] theorem State.logEvent_reg (s : State) (e : LogEvent) : (s.logEvent e).reg = s.reg := rfl
@[simp] theorem State.logEvent_mem (s : State) (e : LogEvent) : (s.logEvent e).mem = s.mem := rfl
@[simp] theorem State.logEvent_page (s : State) (e : LogEvent) : (s.logEvent e).page = s.page := rfl
@[simp] theorem State.logEvent_input (s : State) (e : LogEvent) : (s.logEvent e).input = s.input := rfl
@[simp] theorem State.logEvent_trace (s : State) (e : LogEvent) : (s.logEvent e).trace = s.trace ++ [.log e] := rfl

/-! ### `State.answer` -/

@[simp] theorem State.answer_cfg (s : State) (b : Byte) : (s.answer b).cfg = s.cfg := rfl
@[simp] theorem State.answer_tState (s : State) (b : Byte) : (s.answer b).tState = s.tState := rfl
@[simp] theorem State.answer_tDir (s : State) (b : Byte) : (s.answer b).tDir = s.tDir := rfl
@[simp] theorem State.answer_tAddr (s : State) (b : Byte) : (s.answer b).tAddr = s.tAddr := rfl
@[simp] theorem State.answer_tBuf (s : State) (b : Byte) : (s.answer b).tBuf = s.tBuf := rfl
@[simp] theorem State.answer_reg (s : State) (b : Byte) : (s.answer b).reg = s.reg := rfl
@[simp] theorem State.answer_mem (s : State) (b : Byte) : (s.answer b).mem = s.mem := rfl
@[simp] theorem State.answer_page (s : State) (b : Byte) : (s.answer b).page = s.page := rfl
@[simp] theorem State.answer_input (s : State) (b : Byte) : (s.answer b).input = s.input := rfl
@[simp] theorem State.answer_trace (s : State) (b : Byte) : (s.answer b).trace = s.trace ++ [.reply b] := rfl

/-! ### `State.answerDefault` -/

@[simp] theorem State.answerDefault_cfg (s : State) : s.answerDefault.cfg = s.cfg := rfl
@[simp] theorem State.answerDefault_tState (s : State) : s.answerDefault.tState = s.tState := rfl
@[simp] theorem State.answerDefault_tDir (s : State) : s.answerDefault.tDir = s.tDir := rfl
@[simp] theorem State.answerDefault_tAddr (s : State) : s.answerDefault.tAddr = s.tAddr := rfl
@[simp] theorem State.answerDefault_tBuf (s : State) : s.answerDefault.tBuf = s.tBuf := rfl
@[simp] theorem State.answerDefault_reg (s : State) : s.answerDefault.reg = s.reg := rfl
@[simp] theorem State.answerDefault_mem (s : State) : s.answerDefault.mem = s.mem := rfl
@[simp] theorem State.answerDefault_page (s : State) : s.answerDefault.page = s.page := rfl
@[simp] theorem State.answerDefault_input (s : State) : s.answerDefault.input = s.input := rfl
@[simp] theorem State.answerDefault_trace (s : State) : s.answerDefault.trace = s.trace ++ [.reply s.cfg.defaultOut] := rfl

end Sys2Proof.Machine
end

