-- ==== Sys2Proof/Laws/Memory.lean ====
section
/-! SUPPORT. The laws of memory: numbers of places, reading after writing, the canonical form, and what `resolve`,
`memRead` and `memWrite` do. -/

namespace Sys2Proof.Machine

open Sys2Proof

/-! ### Reading and writing the listed words -/

/-- A write leaves every other number's word alone. -/
theorem cellRead_cellWrite_other (m : Memory) (k j : Nat) (v : Word32) (h : j ≠ k) :
    cellRead (cellWrite m k v) j = cellRead m j := by
  induction m with
  | nil => unfold cellWrite; split <;> simp [cellRead, h.symm]
  | cons c rest ih =>
    obtain ⟨i, w⟩ := c
    unfold cellWrite
    by_cases h1 : k < i
    · rw [if_pos h1]; split <;> simp [cellRead, h.symm]
    · rw [if_neg h1]
      by_cases h2 : i = k
      · subst h2
        rw [if_pos rfl]; split <;> simp [cellRead, h.symm]
      · rw [if_neg h2]; simp [cellRead, ih]

/-- Numbers above `k` are not `k`. -/
theorem cellRead_of_above (m : Memory) (k : Nat) (h : Memory.above k m = true) : cellRead m k = 0 := by
  induction m with
  | nil => rfl
  | cons c rest ih =>
    simp only [Memory.above, Bool.and_eq_true, decide_eq_true_eq] at h
    have : c.1 ≠ k := by omega
    simp [cellRead, this, ih h.2]

theorem above_mono (m : Memory) {j k : Nat} (hjk : j ≤ k) (h : Memory.above k m = true) : Memory.above j m = true := by
  induction m with
  | nil => rfl
  | cons c rest ih =>
    simp only [Memory.above, Bool.and_eq_true, decide_eq_true_eq] at h ⊢
    exact ⟨by omega, ih h.2⟩

/-- A read after a write of the same number gives the value written, in a memory in canonical form. -/
theorem cellRead_cellWrite_same (m : Memory) (k : Nat) (v : Word32) (h : Memory.wf m = true) :
    cellRead (cellWrite m k v) k = v := by
  induction m with
  | nil => unfold cellWrite; split <;> simp_all [cellRead]
  | cons c rest ih =>
    obtain ⟨i, w⟩ := c
    simp only [Memory.wf, Bool.and_eq_true, decide_eq_true_eq] at h
    obtain ⟨⟨habove, hw⟩, hwf⟩ := h
    unfold cellWrite
    by_cases h1 : k < i
    · rw [if_pos h1]
      split
      · next hv =>
        have : i ≠ k := by omega
        simp [cellRead, this, hv, cellRead_of_above rest k (above_mono rest (by omega) habove)]
      · simp [cellRead]
    · rw [if_neg h1]
      by_cases h2 : i = k
      · subst h2
        rw [if_pos rfl]
        split
        · next hv => rw [hv]; exact cellRead_of_above rest i habove
        · simp [cellRead]
      · rw [if_neg h2]; simp [cellRead, h2, ih hwf]

theorem above_cellWrite (m : Memory) (j k : Nat) (v : Word32) (hjk : j < k) (h : Memory.above j m = true) :
    Memory.above j (cellWrite m k v) = true := by
  induction m with
  | nil => unfold cellWrite; split <;> simp [Memory.above, hjk]
  | cons c rest ih =>
    obtain ⟨i, w⟩ := c
    simp only [Memory.above, Bool.and_eq_true, decide_eq_true_eq] at h
    unfold cellWrite
    by_cases h1 : k < i
    · rw [if_pos h1]; split <;> simp [Memory.above, h.1, h.2, hjk]
    · rw [if_neg h1]
      by_cases h2 : i = k
      · rw [if_pos h2]; split <;> simp [Memory.above, h.2, hjk]
      · rw [if_neg h2]; simp [Memory.above, h.1, ih h.2]

/-- A write keeps the canonical form. -/
theorem cellWrite_wf (m : Memory) (k : Nat) (v : Word32) (h : Memory.wf m = true) :
    Memory.wf (cellWrite m k v) = true := by
  induction m with
  | nil => unfold cellWrite; split <;> simp_all [Memory.wf, Memory.above]
  | cons c rest ih =>
    obtain ⟨i, w⟩ := c
    have h' := h
    simp only [Memory.wf, Bool.and_eq_true, decide_eq_true_eq] at h
    obtain ⟨⟨habove, hw⟩, hwf⟩ := h
    unfold cellWrite
    by_cases h1 : k < i
    · rw [if_pos h1]
      split
      · exact h'
      · next hv =>
        simp only [Memory.wf, Memory.above, h1, hwf, habove, above_mono rest (Nat.le_of_lt h1) habove, decide_true,
          Bool.and_true, Bool.true_and, Bool.and_eq_true, decide_eq_true_eq]
        exact ⟨hv, hw⟩
    · rw [if_neg h1]
      by_cases h2 : i = k
      · subst h2
        rw [if_pos rfl]
        split
        · exact hwf
        · next hv =>
          simp only [Memory.wf, hwf, habove, Bool.and_true, Bool.true_and, decide_eq_true_eq]
          exact hv
      · rw [if_neg h2]
        simp only [Memory.wf, ih hwf, above_cellWrite rest i k v (by omega) habove, Bool.and_true, Bool.true_and,
          decide_eq_true_eq]
        exact hw

/-- A write lists no number but its own anew. -/
theorem cellWrite_placed (regions : List Region) (m : Memory) (k : Nat) (v : Word32)
    (h : Memory.placed regions m = true) (hk : keyExists regions k = true) :
    Memory.placed regions (cellWrite m k v) = true := by
  induction m with
  | nil => unfold cellWrite; split <;> simp [Memory.placed, hk]
  | cons c rest ih =>
    obtain ⟨i, w⟩ := c
    simp only [Memory.placed, List.all_cons, Bool.and_eq_true] at h ih ⊢
    have ih := ih h.2
    unfold cellWrite
    by_cases h1 : k < i
    · rw [if_pos h1]; split <;> simp only [List.all_cons, Bool.and_eq_true, h.1, h.2, hk, and_self]
    · rw [if_neg h1]
      by_cases h2 : i = k
      · rw [if_pos h2]; split <;> simp only [List.all_cons, Bool.and_eq_true, h.2, hk, and_self]
      · rw [if_neg h2]; simp only [List.all_cons, Bool.and_eq_true, h.1, ih, and_self]

/-! ### Places -/

/-- Different places have different numbers, since no index reaches 2^16. -/
theorem Place.key_inj {q r : Place} (hq : q.index < 0x10000) (hr : r.index < 0x10000) (h : q.key = r.key) : q = r := by
  obtain ⟨a, p, i⟩ := q
  obtain ⟨b, p', j⟩ := r
  cases p <;> cases p' <;> simp [Place.key, pageNumber] at * <;> omega

/-- What `findRegion` finds: a region at its position, and the index of the address in it. -/
theorem findRegion_some {regions : List Region} {addr n r i : Nat} (h : findRegion regions addr n = some (r, i)) :
    ∃ g, regions[r - n]? = some g ∧ n ≤ r ∧ g.base ≤ addr ∧ addr < g.base + g.size ∧ i = addr - g.base := by
  induction regions generalizing n with
  | nil => simp [findRegion] at h
  | cons g rest ih =>
    unfold findRegion at h
    split at h
    · next hin =>
      obtain ⟨rfl, rfl⟩ : n = r ∧ addr - g.base = i := by simpa using h
      exact ⟨g, by simp, le_refl _, hin.1, hin.2, rfl⟩
    · obtain ⟨g', h1, h2, h3⟩ := ih h
      refine ⟨g', ?_, by omega, h3⟩
      have : r - n = (r - (n + 1)) + 1 := by omega
      rw [this]; simpa using h1

/-- What `resolve` answers: an address below `CTRL_BOUNDARY` in a window, at its index, in the page of the override
(R55). -/
theorem resolve_some {s : State} {addr : Nat} {ovr : Override} {q : Place} (h : resolve s addr ovr = some q) :
    addr < ctrlBoundary ∧ q.page = pageOf s ovr ∧
      ∃ g, s.cfg.regions[q.region]? = some g ∧ g.base ≤ addr ∧ addr < g.base + g.size ∧ q.index = addr - g.base := by
  unfold resolve at h
  split at h
  · cases h
  · next hlt =>
    split at h
    · next r i hf =>
      obtain rfl : _ = q := by simpa using h
      obtain ⟨g, h1, -, h2⟩ := findRegion_some hf
      exact ⟨by omega, rfl, g, by simpa using h1, h2⟩
    · cases h

theorem resolve_index_lt {s : State} {addr : Nat} {ovr : Override} {q : Place} (h : resolve s addr ovr = some q) :
    q.index < 0x10000 := by
  obtain ⟨h1, -, g, -, -, -, h2⟩ := resolve_some h
  simp only [ctrlBoundary] at h1; omega

/-- The word of a resolved address exists (R32 item 2). -/
theorem resolve_keyExists {s : State} {addr : Nat} {ovr : Override} {q : Place} (h : resolve s addr ovr = some q) :
    keyExists s.cfg.regions q.key = true := by
  have hi := resolve_index_lt h
  obtain ⟨-, -, g, hg, h1, h2, h3⟩ := resolve_some h
  obtain ⟨r, p, i⟩ := q
  have hd : Place.key ⟨r, p, i⟩ / 0x20000 = r := by cases p <;> simp [Place.key, pageNumber] at * <;> omega
  have hm : Place.key ⟨r, p, i⟩ % 0x10000 = i := by cases p <;> simp [Place.key, pageNumber] at * <;> omega
  simp only at hg h3
  simp only [keyExists, hd, hg, hm, decide_eq_true_eq]
  omega

/-- Resolution depends on the parameters and the page only. -/
theorem resolve_congr {s t : State} (hc : t.cfg = s.cfg) (hp : t.page = s.page) (addr : Nat) (ovr : Override) :
    resolve t addr ovr = resolve s addr ovr := by
  have : pageOf t ovr = pageOf s ovr := by cases ovr <;> simp [pageOf, hp]
  simp [resolve, hc, this]

/-- A read depends on the parameters, the page and memory only. -/
theorem memRead_congr {s t : State} (hc : t.cfg = s.cfg) (hp : t.page = s.page) (hm : t.mem = s.mem) (addr : Nat)
    (ovr : Override) : memRead t addr ovr = memRead s addr ovr := by
  simp [memRead, memWord, resolve_congr hc hp, hm]

/-! ### Writing a word (R58) -/

/-- A memory write changes memory only. -/
theorem memWrite_eq (s : State) (addr : Nat) (v : Word32) (ovr : Override) :
    memWrite s addr v ovr = s.setMem (memWrite s addr v ovr).mem := by
  unfold memWrite; split <;> rfl

@[simp] theorem memWrite_cfg (s : State) (addr : Nat) (v : Word32) (ovr : Override) :
    (memWrite s addr v ovr).cfg = s.cfg := by rw [memWrite_eq]; rfl

@[simp] theorem memWrite_tState (s : State) (addr : Nat) (v : Word32) (ovr : Override) :
    (memWrite s addr v ovr).tState = s.tState := by rw [memWrite_eq]; rfl

@[simp] theorem memWrite_tDir (s : State) (addr : Nat) (v : Word32) (ovr : Override) :
    (memWrite s addr v ovr).tDir = s.tDir := by rw [memWrite_eq]; rfl

@[simp] theorem memWrite_tAddr (s : State) (addr : Nat) (v : Word32) (ovr : Override) :
    (memWrite s addr v ovr).tAddr = s.tAddr := by rw [memWrite_eq]; rfl

@[simp] theorem memWrite_tBuf (s : State) (addr : Nat) (v : Word32) (ovr : Override) :
    (memWrite s addr v ovr).tBuf = s.tBuf := by rw [memWrite_eq]; rfl

@[simp] theorem memWrite_reg (s : State) (addr : Nat) (v : Word32) (ovr : Override) :
    (memWrite s addr v ovr).reg = s.reg := by rw [memWrite_eq]; rfl

@[simp] theorem memWrite_page (s : State) (addr : Nat) (v : Word32) (ovr : Override) :
    (memWrite s addr v ovr).page = s.page := by rw [memWrite_eq]; rfl

@[simp] theorem memWrite_input (s : State) (addr : Nat) (v : Word32) (ovr : Override) :
    (memWrite s addr v ovr).input = s.input := by rw [memWrite_eq]; rfl

@[simp] theorem memWrite_trace (s : State) (addr : Nat) (v : Word32) (ovr : Override) :
    (memWrite s addr v ovr).trace = s.trace := by rw [memWrite_eq]; rfl

/-- A write at an address that resolves to none does nothing (R58). -/
theorem memWrite_none {s : State} {addr : Nat} {ovr : Override} (v : Word32) (h : resolve s addr ovr = none) :
    memWrite s addr v ovr = s := by simp [memWrite, h]

/-- A write at an address that resolves to a place writes that place's word (R58). -/
theorem memWrite_some {s : State} {addr : Nat} {ovr : Override} {q : Place} (v : Word32)
    (h : resolve s addr ovr = some q) : memWrite s addr v ovr = setMemWord s q v := by simp [memWrite, h]

/-- A read of the address just written gives the value written, if the address has a word. -/
theorem memRead_memWrite_same {s : State} {addr : Nat} {ovr : Override} {q : Place} (v : Word32)
    (hwf : Memory.wf s.mem = true) (h : resolve s addr ovr = some q) :
    memRead (memWrite s addr v ovr) addr ovr = v := by
  have hr : resolve (memWrite s addr v ovr) addr ovr = some q :=
    (resolve_congr (memWrite_cfg s addr v ovr) (memWrite_page s addr v ovr) addr ovr).trans h
  rw [memRead, hr]
  simp only [memWord, memWrite_some v h, setMemWord, State.setMem_mem]
  exact cellRead_cellWrite_same _ _ _ hwf

/-- A write leaves every word at another place as it was. -/
theorem memRead_memWrite_other {s : State} {addr a : Nat} {ovr o : Override} (v : Word32)
    (h : resolve s a o = none ∨ resolve s a o ≠ resolve s addr ovr) :
    memRead (memWrite s addr v ovr) a o = memRead s a o := by
  have hr : resolve (memWrite s addr v ovr) a o = resolve s a o := resolve_congr (by simp) (by simp) a o
  unfold memRead
  rw [hr]
  cases ha : resolve s a o with
  | none => rfl
  | some q =>
    cases hd : resolve s addr ovr with
    | none => simp [memWrite, hd]
    | some r =>
      have hne : q ≠ r := by
        rintro rfl
        rcases h with h | h
        · simp [ha] at h
        · exact h (by rw [ha, hd])
      simp only [memWord, memWrite_some v hd, setMemWord, State.setMem_mem]
      exact cellRead_cellWrite_other _ _ _ _ fun hk =>
        hne (Place.key_inj (resolve_index_lt ha) (resolve_index_lt hd) hk)

/-- A memory write keeps the canonical form, and lists only words that exist. -/
theorem memWrite_memory {s : State} (addr : Nat) (v : Word32) (ovr : Override)
    (h : Memory.wf s.mem = true ∧ Memory.placed s.cfg.regions s.mem = true) :
    Memory.wf (memWrite s addr v ovr).mem = true ∧ Memory.placed s.cfg.regions (memWrite s addr v ovr).mem = true := by
  cases hr : resolve s addr ovr with
  | none => simpa [memWrite, hr] using h
  | some q =>
    rw [memWrite_some v hr]
    exact ⟨cellWrite_wf _ _ _ h.1, cellWrite_placed _ _ _ _ h.2 (resolve_keyExists hr)⟩

/-- The empty memory is in canonical form. -/
theorem wf_nil : Memory.wf [] = true := rfl

/-- The reset state's memory is in canonical form. -/
theorem reset_memory_wf : Memory.wf State.reset.mem = true := rfl

end Sys2Proof.Machine
end

