-- ==== Sys2Proof/Laws/PerInstr.lean ====
section
/-! SUPPORT. What decoding an event to an instruction says of the event, one lemma per instruction. -/

namespace Sys2Proof.Laws.DecodeSound

open Sys2Proof

/-- An event that decodes to `i` is `i`'s event, `i` is well formed, and the context is one that `i` is read in. -/
def Statement (i : Instr) : Prop :=
  ∀ (c : Context) (e : Event), decode c e = .ok i → encode i = e ∧ i.wf = true ∧ i.readIn c = true

/-- The lemma behind every case: the decoder reads each byte by its row of 30_encoding.md R89. -/
theorem decode_sound (i : Instr) : Statement i := by
  rintro ⟨st, d, x⟩ e h
  cases e with
  | transmit b =>
    cases st with
    | idle =>
      simp only [decode, decodeByte, Except.ok.injEq] at h
      split at h <;> subst h <;> simp_all [encode, Instr.wf, Instr.readIn]
    | subAddressHigh => obtain rfl : Instr.saHi b = i := by simpa [decode, decodeByte] using h
                        exact ⟨rfl, rfl, rfl⟩
    | subAddressLow => obtain rfl : Instr.saLo b = i := by simpa [decode, decodeByte] using h
                       exact ⟨rfl, rfl, rfl⟩
    | data0 => cases d <;> cases x <;> cases h <;> exact ⟨rfl, rfl, rfl⟩
    | data1 => cases d <;> cases x <;> cases h <;> exact ⟨rfl, rfl, rfl⟩
    | data2 => cases d <;> cases x <;> cases h <;> exact ⟨rfl, rfl, rfl⟩
    | data3 => cases d <;> cases x <;> cases h <;> exact ⟨rfl, rfl, rfl⟩
  | _ => cases h; exact ⟨rfl, rfl, rfl⟩

theorem caWr (b : Byte) : Statement (.caWr b) := decode_sound _
theorem caRd (b : Byte) : Statement (.caRd b) := decode_sound _
theorem saHi (b : Byte) : Statement (.saHi b) := decode_sound _
theorem saLo (b : Byte) : Statement (.saLo b) := decode_sound _
theorem wr16D0 (b : Byte) : Statement (.wr16D0 b) := decode_sound _
theorem wr16D1 (b : Byte) : Statement (.wr16D1 b) := decode_sound _
theorem rd16D0 (b : Byte) : Statement (.rd16D0 b) := decode_sound _
theorem rd16D1 (b : Byte) : Statement (.rd16D1 b) := decode_sound _
theorem wr32D0 (b : Byte) : Statement (.wr32D0 b) := decode_sound _
theorem wr32D1 (b : Byte) : Statement (.wr32D1 b) := decode_sound _
theorem wr32D2 (b : Byte) : Statement (.wr32D2 b) := decode_sound _
theorem wr32D3 (b : Byte) : Statement (.wr32D3 b) := decode_sound _
theorem rd32D0 (b : Byte) : Statement (.rd32D0 b) := decode_sound _
theorem rd32D1 (b : Byte) : Statement (.rd32D1 b) := decode_sound _
theorem rd32D2 (b : Byte) : Statement (.rd32D2 b) := decode_sound _
theorem rd32D3 (b : Byte) : Statement (.rd32D3 b) := decode_sound _
theorem selAssert : Statement .selAssert := decode_sound _
theorem selDeassert : Statement .selDeassert := decode_sound _
theorem reset : Statement .reset := decode_sound _
theorem bulkRead (start : Word16) (count : Nat) (page : Page) (sink : SinkAnswer) :
    Statement (.bulkRead start count page sink) := decode_sound _
theorem regExport (sink : SinkAnswer) : Statement (.regExport sink) := decode_sound _

end Sys2Proof.Laws.DecodeSound
end

