-- ==== Sys2Proof/Laws/Registers.lean ====
section
/-! SUPPORT. The laws of the register bank (41_register_bank.md): lookups, stored values, what a write can do and what
a bank reset leaves. -/

namespace Sys2Proof.Machine

open Sys2Proof

/-! ### The table -/

/-- What `lookup` finds is an entry of the table, at that address (R140). -/
theorem lookup_some {table : List RegEntry} {a : Word16} {e : RegEntry} (h : lookup table a = some e) :
    e ∈ table ∧ e.addr = a := by
  induction table with
  | nil => cases h
  | cons f rest ih =>
    unfold lookup at h
    split at h
    · next hf => obtain rfl : f = e := by simpa using h
                 exact ⟨by simp, hf⟩
    · exact ⟨List.mem_cons_of_mem _ (ih h).1, (ih h).2⟩

/-- In a table of distinct addresses every entry is found at its own address. -/
theorem lookup_of_mem {table : List RegEntry} (hd : addrsDistinct table = true) {e : RegEntry} (he : e ∈ table) :
    lookup table e.addr = some e := by
  induction table with
  | nil => cases he
  | cons f rest ih =>
    simp only [addrsDistinct, Bool.and_eq_true, List.all_eq_true, decide_eq_true_eq] at hd
    unfold lookup
    rcases List.mem_cons.1 he with rfl | he
    · simp
    · have : f.addr ≠ e.addr := fun h => hd.1 e he h.symm
      rw [if_neg this]; exact ih hd.2 he

/-- A declared address is found. -/
theorem lookup_isSome {table : List RegEntry} {e : RegEntry} (he : e ∈ table) : (lookup table e.addr).isSome = true := by
  induction table with
  | nil => cases he
  | cons f rest ih =>
    unfold lookup
    split
    · rfl
    · next hf =>
      rcases List.mem_cons.1 he with rfl | he
      · exact absurd rfl hf
      · exact ih he

/-! ### The stored values -/

theorem regGet_regSet_same (reg : List (Word16 × Word16)) (a v : Word16) : regGet (regSet reg a v) a = v := by
  induction reg with
  | nil => simp [regSet, regGet]
  | cons c rest ih =>
    unfold regSet
    by_cases h : c.1 = a
    · simp [h, regGet]
    · simp [h, regGet, ih]

theorem regGet_regSet_other (reg : List (Word16 × Word16)) {a b : Word16} (v : Word16) (h : b ≠ a) :
    regGet (regSet reg a v) b = regGet reg b := by
  induction reg with
  | nil => simp [regSet, regGet, h.symm]
  | cons c rest ih =>
    unfold regSet
    by_cases hc : c.1 = a
    · subst hc
      have h2 : c.1 ≠ b := h.symm
      simp [regGet, h2]
    · rw [if_neg hc]
      unfold regGet
      by_cases hb : c.1 = b
      · rw [if_pos hb, if_pos hb]
      · rw [if_neg hb, if_neg hb, ih]

/-- A store to a declared register keeps the bank's list of addresses (R24). -/
theorem regSet_addrs (reg : List (Word16 × Word16)) (a v : Word16) (h : a ∈ reg.map Prod.fst) :
    (regSet reg a v).map Prod.fst = reg.map Prod.fst := by
  induction reg with
  | nil => cases h
  | cons c rest ih =>
    unfold regSet
    by_cases hc : c.1 = a
    · simp [hc]
    · have : a ∈ rest.map Prod.fst := by
        rcases List.mem_cons.1 h with h | h
        · exact absurd h.symm hc
        · exact h
      simp [hc, ih this]

theorem resetValues_addrs (table : List RegEntry) : (resetValues table).map Prod.fst = table.map RegEntry.addr := by
  induction table with
  | nil => rfl
  | cons e rest ih => simp [resetValues, ih]

theorem regGet_resetValues {table : List RegEntry} {e : RegEntry} {a : Word16} (h : lookup table a = some e) :
    regGet (resetValues table) a = e.reset := by
  induction table with
  | nil => cases h
  | cons f rest ih =>
    unfold lookup at h
    split at h
    · next hf => obtain rfl : f = e := by simpa using h
                 simp [resetValues, regGet, hf]
    · next hf => simp [resetValues, regGet, hf, ih h]

/-! ### The bank reset (R150) -/

theorem resetRegs_addrs (reg : List (Word16 × Word16)) (table : List RegEntry)
    (h : ∀ e ∈ table, e.addr ∈ reg.map Prod.fst) : (resetRegs reg table).map Prod.fst = reg.map Prod.fst := by
  induction table generalizing reg with
  | nil => rfl
  | cons e rest ih =>
    have h1 := regSet_addrs reg e.addr e.reset (h e (by simp))
    unfold resetRegs
    rw [ih _ (by intro f hf; rw [h1]; exact h f (List.mem_cons_of_mem _ hf)), h1]

theorem regGet_resetRegs_other (reg : List (Word16 × Word16)) (table : List RegEntry) (a : Word16)
    (h : ∀ e ∈ table, e.addr ≠ a) : regGet (resetRegs reg table) a = regGet reg a := by
  induction table generalizing reg with
  | nil => rfl
  | cons e rest ih =>
    unfold resetRegs
    rw [ih _ (fun f hf => h f (List.mem_cons_of_mem _ hf)), regGet_regSet_other _ _ (h e (by simp)).symm]

/-- After a bank reset every declared register holds its reset value (R150). -/
theorem regGet_resetRegs (reg : List (Word16 × Word16)) {table : List RegEntry} (hd : addrsDistinct table = true)
    {e : RegEntry} (he : e ∈ table) : regGet (resetRegs reg table) e.addr = e.reset := by
  induction table generalizing reg with
  | nil => cases he
  | cons f rest ih =>
    simp only [addrsDistinct, Bool.and_eq_true, List.all_eq_true, decide_eq_true_eq] at hd
    unfold resetRegs
    rcases List.mem_cons.1 he with rfl | he
    · rw [regGet_resetRegs_other _ _ _ hd.1, regGet_regSet_same]
    · exact ih _ hd.2 he

/-! ### What a write can do (R143 to R149) -/

/-- A register write leaves the state, stores the value, stores it and sets the page, or stores it and logs the hook. -/
theorem regWrite_cases (s : State) (a v : Word16) :
    (regWrite s a v = s ∧ (lookup s.cfg.regTable a = none ∨ ∃ e, lookup s.cfg.regTable a = some e ∧ e.mode = .ro)) ∨
    ∃ e, lookup s.cfg.regTable a = some e ∧ e.mode ≠ .ro ∧
      ((regWrite s a v = storeReg s a v ∧ (e.mode = .rw ∨ e.tag = none)) ∨
       (regWrite s a v = (storeReg s a v).setPage (pageOfValue s.cfg v) ∧ e.mode = .rwse ∧ e.tag = some .pageSelect) ∨
       (regWrite s a v = (storeReg s a v).logEvent (.hookBackup a v) ∧ e.mode = .rwse ∧
          e.tag = some .backupDomain)) := by
  unfold regWrite
  cases hl : lookup s.cfg.regTable a with
  | none => simp
  | some e =>
    cases hm : e.mode with
    | ro => exact .inl ⟨by simp [hm], .inr ⟨e, rfl, hm⟩⟩
    | rw => exact .inr ⟨e, rfl, by simp [hm], .inl ⟨by simp [hm], .inl hm⟩⟩
    | rwse =>
      refine .inr ⟨e, rfl, by simp [hm], ?_⟩
      rcases ht : e.tag with _ | _ | _
      · exact .inl ⟨by simp [hm, ht, sideEffect], .inr rfl⟩
      · exact .inr (.inl ⟨by simp [hm, ht, sideEffect, storeReg], hm, rfl⟩)
      · exact .inr (.inr ⟨by simp [hm, ht, sideEffect], hm, rfl⟩)

@[simp] theorem regWrite_cfg (s : State) (a v : Word16) :
    (regWrite s a v).cfg = s.cfg := by
  rcases regWrite_cases s a v with ⟨h, -⟩ | ⟨e, -, -, ⟨h, -⟩ | ⟨h, -⟩ | ⟨h, -⟩⟩ <;> rw [h] <;> rfl

@[simp] theorem regWrite_tState (s : State) (a v : Word16) :
    (regWrite s a v).tState = s.tState := by
  rcases regWrite_cases s a v with ⟨h, -⟩ | ⟨e, -, -, ⟨h, -⟩ | ⟨h, -⟩ | ⟨h, -⟩⟩ <;> rw [h] <;> rfl

@[simp] theorem regWrite_tDir (s : State) (a v : Word16) :
    (regWrite s a v).tDir = s.tDir := by
  rcases regWrite_cases s a v with ⟨h, -⟩ | ⟨e, -, -, ⟨h, -⟩ | ⟨h, -⟩ | ⟨h, -⟩⟩ <;> rw [h] <;> rfl

@[simp] theorem regWrite_tAddr (s : State) (a v : Word16) :
    (regWrite s a v).tAddr = s.tAddr := by
  rcases regWrite_cases s a v with ⟨h, -⟩ | ⟨e, -, -, ⟨h, -⟩ | ⟨h, -⟩ | ⟨h, -⟩⟩ <;> rw [h] <;> rfl

@[simp] theorem regWrite_tBuf (s : State) (a v : Word16) :
    (regWrite s a v).tBuf = s.tBuf := by
  rcases regWrite_cases s a v with ⟨h, -⟩ | ⟨e, -, -, ⟨h, -⟩ | ⟨h, -⟩ | ⟨h, -⟩⟩ <;> rw [h] <;> rfl

@[simp] theorem regWrite_mem (s : State) (a v : Word16) :
    (regWrite s a v).mem = s.mem := by
  rcases regWrite_cases s a v with ⟨h, -⟩ | ⟨e, -, -, ⟨h, -⟩ | ⟨h, -⟩ | ⟨h, -⟩⟩ <;> rw [h] <;> rfl

@[simp] theorem regWrite_input (s : State) (a v : Word16) :
    (regWrite s a v).input = s.input := by
  rcases regWrite_cases s a v with ⟨h, -⟩ | ⟨e, -, -, ⟨h, -⟩ | ⟨h, -⟩ | ⟨h, -⟩⟩ <;> rw [h] <;> rfl

/-- A register write keeps the bank's list of addresses (R24). -/
theorem regWrite_declared {s : State} (a v : Word16) (h : RegsDeclared s) : RegsDeclared (regWrite s a v) := by
  unfold RegsDeclared at h ⊢
  rw [regWrite_cfg]
  rcases regWrite_cases s a v with ⟨hw, -⟩ | ⟨e, he, -, hw⟩
  · rw [hw, h]
  · have hm : a ∈ s.reg.map Prod.fst := by
      obtain ⟨h1, rfl⟩ := lookup_some he
      rw [h]; exact List.mem_map_of_mem h1
    have : (regWrite s a v).reg = regSet s.reg a v := by
      rcases hw with ⟨hw, -⟩ | ⟨hw, -⟩ | ⟨hw, -⟩ <;> rw [hw] <;> rfl
    rw [this, regSet_addrs _ _ _ hm, h]

/-! ### Reads (R141) -/

/-- A register read changes nothing but the log (20_memory.md R61). -/
theorem regRead_state (s : State) (a : Word16) :
    (regRead s a).2 = s ∨ (lookup s.cfg.regTable a = none ∧ (regRead s a).2 = s.logEvent (.errReadUnmapped a)) := by
  unfold regRead
  cases h : lookup s.cfg.regTable a <;> simp

/-- A decoder read changes nothing but the log (R61). -/
theorem decoderRead_state (s : State) (a : Word16) :
    (decoderRead s a).2 = s ∨ (decoderRead s a).2 = s.logEvent (.errReadUnmapped a) := by
  unfold decoderRead
  cases classOf a with
  | ctrl => exact (regRead_state s a).imp id And.right
  | mem => cases h : resolve s a.toNat .current <;> simp

@[simp] theorem decoderRead_cfg (s : State) (a : Word16) :
    ((decoderRead s a).2).cfg = s.cfg := by
  rcases decoderRead_state s a with h | h <;> (rw [h]; try rfl)

@[simp] theorem decoderRead_tState (s : State) (a : Word16) :
    ((decoderRead s a).2).tState = s.tState := by
  rcases decoderRead_state s a with h | h <;> (rw [h]; try rfl)

@[simp] theorem decoderRead_tDir (s : State) (a : Word16) :
    ((decoderRead s a).2).tDir = s.tDir := by
  rcases decoderRead_state s a with h | h <;> (rw [h]; try rfl)

@[simp] theorem decoderRead_tAddr (s : State) (a : Word16) :
    ((decoderRead s a).2).tAddr = s.tAddr := by
  rcases decoderRead_state s a with h | h <;> (rw [h]; try rfl)

@[simp] theorem decoderRead_tBuf (s : State) (a : Word16) :
    ((decoderRead s a).2).tBuf = s.tBuf := by
  rcases decoderRead_state s a with h | h <;> (rw [h]; try rfl)

@[simp] theorem decoderRead_reg (s : State) (a : Word16) :
    ((decoderRead s a).2).reg = s.reg := by
  rcases decoderRead_state s a with h | h <;> (rw [h]; try rfl)

@[simp] theorem decoderRead_mem (s : State) (a : Word16) :
    ((decoderRead s a).2).mem = s.mem := by
  rcases decoderRead_state s a with h | h <;> (rw [h]; try rfl)

@[simp] theorem decoderRead_page (s : State) (a : Word16) :
    ((decoderRead s a).2).page = s.page := by
  rcases decoderRead_state s a with h | h <;> (rw [h]; try rfl)

@[simp] theorem decoderRead_input (s : State) (a : Word16) :
    ((decoderRead s a).2).input = s.input := by
  rcases decoderRead_state s a with h | h <;> (rw [h]; try rfl)

end Sys2Proof.Machine
end

