-- ==== Sys2Proof/Laws/Safeload.lean ====
section
/-! SUPPORT. The laws of the safeload engine (42_safeload.md) and of the decoder's commit (40_protocol_decoder.md R121):
they write memory only, and keep its form. -/

namespace Sys2Proof.Machine

open Sys2Proof

/-! ### The copy changes memory only (R162: `Page` is neither read nor written) -/

theorem copyWords_eq (s : State) (ovr : Override) (src dst n : Nat) :
    copyWords s ovr src dst n = s.setMem (copyWords s ovr src dst n).mem := by
  induction n generalizing s src dst with
  | zero => rfl
  | succ n ih =>
    unfold copyWords
    rw [ih, copyWord, memWrite_eq]
    rfl

@[simp] theorem copyWords_cfg (s : State) (ovr : Override) (src dst n : Nat) :
    (copyWords s ovr src dst n).cfg = s.cfg := by rw [copyWords_eq]; rfl

@[simp] theorem copyWords_tState (s : State) (ovr : Override) (src dst n : Nat) :
    (copyWords s ovr src dst n).tState = s.tState := by rw [copyWords_eq]; rfl

@[simp] theorem copyWords_tDir (s : State) (ovr : Override) (src dst n : Nat) :
    (copyWords s ovr src dst n).tDir = s.tDir := by rw [copyWords_eq]; rfl

@[simp] theorem copyWords_tAddr (s : State) (ovr : Override) (src dst n : Nat) :
    (copyWords s ovr src dst n).tAddr = s.tAddr := by rw [copyWords_eq]; rfl

@[simp] theorem copyWords_tBuf (s : State) (ovr : Override) (src dst n : Nat) :
    (copyWords s ovr src dst n).tBuf = s.tBuf := by rw [copyWords_eq]; rfl

@[simp] theorem copyWords_reg (s : State) (ovr : Override) (src dst n : Nat) :
    (copyWords s ovr src dst n).reg = s.reg := by rw [copyWords_eq]; rfl

@[simp] theorem copyWords_page (s : State) (ovr : Override) (src dst n : Nat) :
    (copyWords s ovr src dst n).page = s.page := by rw [copyWords_eq]; rfl

@[simp] theorem copyWords_input (s : State) (ovr : Override) (src dst n : Nat) :
    (copyWords s ovr src dst n).input = s.input := by rw [copyWords_eq]; rfl

@[simp] theorem copyWords_trace (s : State) (ovr : Override) (src dst n : Nat) :
    (copyWords s ovr src dst n).trace = s.trace := by rw [copyWords_eq]; rfl

/-- The copy keeps the canonical form, and lists only words that exist. -/
theorem copyWords_memory {s : State} (ovr : Override) (src dst n : Nat)
    (h : Memory.wf s.mem = true ∧ Memory.placed s.cfg.regions s.mem = true) :
    Memory.wf (copyWords s ovr src dst n).mem = true ∧
      Memory.placed s.cfg.regions (copyWords s ovr src dst n).mem = true := by
  induction n generalizing s src dst with
  | zero => exact h
  | succ n ih =>
    unfold copyWords copyWord
    have h1 := memWrite_memory dst (memRead s src ovr) ovr h
    have := ih (s := memWrite s dst (memRead s src ovr) ovr) (src + 1) (dst + 1) (by simpa using h1)
    simpa using this

/-- `n + m` iterations are `n` iterations and then `m` more. -/
theorem copyWords_add (s : State) (ovr : Override) (src dst n m : Nat) :
    copyWords s ovr src dst (n + m) = copyWords (copyWords s ovr src dst n) ovr (src + n) (dst + n) m := by
  induction n generalizing s src dst with
  | zero => simp [copyWords]
  | succ n ih =>
    rw [show n + 1 + m = (n + m) + 1 by omega]
    simp only [copyWords]
    rw [ih]
    congr 1 <;> omega

theorem safeloadCheck_eq (s : State) (addr : Word16) (v : Word32) :
    safeloadCheck s addr v = s.setMem (safeloadCheck s addr v).mem := by
  unfold safeloadCheck safeloadCopy
  split
  · exact copyWords_eq _ _ _ _ _
  · split
    · exact copyWords_eq _ _ _ _ _
    · rfl

@[simp] theorem safeloadCheck_cfg (s : State) (addr : Word16) (v : Word32) :
    (safeloadCheck s addr v).cfg = s.cfg := by rw [safeloadCheck_eq]; rfl

@[simp] theorem safeloadCheck_tState (s : State) (addr : Word16) (v : Word32) :
    (safeloadCheck s addr v).tState = s.tState := by rw [safeloadCheck_eq]; rfl

@[simp] theorem safeloadCheck_tDir (s : State) (addr : Word16) (v : Word32) :
    (safeloadCheck s addr v).tDir = s.tDir := by rw [safeloadCheck_eq]; rfl

@[simp] theorem safeloadCheck_tAddr (s : State) (addr : Word16) (v : Word32) :
    (safeloadCheck s addr v).tAddr = s.tAddr := by rw [safeloadCheck_eq]; rfl

@[simp] theorem safeloadCheck_tBuf (s : State) (addr : Word16) (v : Word32) :
    (safeloadCheck s addr v).tBuf = s.tBuf := by rw [safeloadCheck_eq]; rfl

@[simp] theorem safeloadCheck_reg (s : State) (addr : Word16) (v : Word32) :
    (safeloadCheck s addr v).reg = s.reg := by rw [safeloadCheck_eq]; rfl

@[simp] theorem safeloadCheck_page (s : State) (addr : Word16) (v : Word32) :
    (safeloadCheck s addr v).page = s.page := by rw [safeloadCheck_eq]; rfl

@[simp] theorem safeloadCheck_input (s : State) (addr : Word16) (v : Word32) :
    (safeloadCheck s addr v).input = s.input := by rw [safeloadCheck_eq]; rfl

@[simp] theorem safeloadCheck_trace (s : State) (addr : Word16) (v : Word32) :
    (safeloadCheck s addr v).trace = s.trace := by rw [safeloadCheck_eq]; rfl

theorem safeloadCheck_memory {s : State} (addr : Word16) (v : Word32)
    (h : Memory.wf s.mem = true ∧ Memory.placed s.cfg.regions s.mem = true) :
    Memory.wf (safeloadCheck s addr v).mem = true ∧ Memory.placed s.cfg.regions (safeloadCheck s addr v).mem = true := by
  unfold safeloadCheck safeloadCopy
  split
  · exact copyWords_memory _ _ _ _ h
  · split
    · exact copyWords_memory _ _ _ _ h
    · exact h

/-! ### What the engine depends on: the parameters, the page and memory -/

theorem memWrite_mem_congr {s t : State} (hc : t.cfg = s.cfg) (hp : t.page = s.page) (hm : t.mem = s.mem) (addr : Nat)
    (v : Word32) (ovr : Override) : (memWrite t addr v ovr).mem = (memWrite s addr v ovr).mem := by
  unfold memWrite
  rw [resolve_congr hc hp]
  split
  · simp [setMemWord, hm]
  · exact hm

theorem ptrValue_congr {s t : State} (hc : t.cfg = s.cfg) (hp : t.page = s.page) (hm : t.mem = s.mem) (p : Page) :
    ptrValue t p = ptrValue s p := by
  simp only [ptrValue, memRead_congr hc hp hm, hc]

theorem copyWords_mem_congr {s t : State} (hc : t.cfg = s.cfg) (hp : t.page = s.page) (hm : t.mem = s.mem)
    (ovr : Override) (src dst n : Nat) : (copyWords t ovr src dst n).mem = (copyWords s ovr src dst n).mem := by
  induction n generalizing s t src dst with
  | zero => exact hm
  | succ n ih =>
    unfold copyWords
    refine ih ?_ ?_ ?_ _ _
    · simp [copyWord, hc]
    · simp [copyWord, hp]
    · rw [copyWord, copyWord, memRead_congr hc hp hm, memWrite_mem_congr hc hp hm]

theorem safeloadCheck_mem_congr {s t : State} (hc : t.cfg = s.cfg) (hp : t.page = s.page) (hm : t.mem = s.mem)
    (addr : Word16) (v : Word32) : (safeloadCheck t addr v).mem = (safeloadCheck s addr v).mem := by
  simp only [safeloadCheck, safeloadCopy, hc, ptrValue_congr hc hp hm]
  split
  · exact copyWords_mem_congr hc hp hm _ _ _ _
  · split
    · exact copyWords_mem_congr hc hp hm _ _ _ _
    · exact hm

/-! ### The commit (R121) -/

theorem decoderCommit_ctrl {s : State} {a : Word16} (v : Word32) (h : classOf a = .ctrl) :
    decoderCommit s a v = regWrite s a (v.setWidth 16) := by simp [decoderCommit, h]

theorem decoderCommit_mem {s : State} {a : Word16} (v : Word32) (h : classOf a = .mem) :
    decoderCommit s a v = safeloadCheck (memWrite s a.toNat v .current) a v := by simp [decoderCommit, h]

@[simp] theorem decoderCommit_cfg (s : State) (a : Word16) (v : Word32) :
    (decoderCommit s a v).cfg = s.cfg := by
  cases h : classOf a with
  | ctrl => rw [decoderCommit_ctrl v h]; simp
  | mem => rw [decoderCommit_mem v h]; simp

@[simp] theorem decoderCommit_tState (s : State) (a : Word16) (v : Word32) :
    (decoderCommit s a v).tState = s.tState := by
  cases h : classOf a with
  | ctrl => rw [decoderCommit_ctrl v h]; simp
  | mem => rw [decoderCommit_mem v h]; simp

@[simp] theorem decoderCommit_tDir (s : State) (a : Word16) (v : Word32) :
    (decoderCommit s a v).tDir = s.tDir := by
  cases h : classOf a with
  | ctrl => rw [decoderCommit_ctrl v h]; simp
  | mem => rw [decoderCommit_mem v h]; simp

@[simp] theorem decoderCommit_tAddr (s : State) (a : Word16) (v : Word32) :
    (decoderCommit s a v).tAddr = s.tAddr := by
  cases h : classOf a with
  | ctrl => rw [decoderCommit_ctrl v h]; simp
  | mem => rw [decoderCommit_mem v h]; simp

@[simp] theorem decoderCommit_tBuf (s : State) (a : Word16) (v : Word32) :
    (decoderCommit s a v).tBuf = s.tBuf := by
  cases h : classOf a with
  | ctrl => rw [decoderCommit_ctrl v h]; simp
  | mem => rw [decoderCommit_mem v h]; simp

@[simp] theorem decoderCommit_input (s : State) (a : Word16) (v : Word32) :
    (decoderCommit s a v).input = s.input := by
  cases h : classOf a with
  | ctrl => rw [decoderCommit_ctrl v h]; simp
  | mem => rw [decoderCommit_mem v h]; simp

/-- A commit keeps memory's form. -/
theorem decoderCommit_memory {s : State} (a : Word16) (v : Word32)
    (h : Memory.wf s.mem = true ∧ Memory.placed s.cfg.regions s.mem = true) :
    Memory.wf (decoderCommit s a v).mem = true ∧ Memory.placed s.cfg.regions (decoderCommit s a v).mem = true := by
  cases hc : classOf a with
  | ctrl => rw [decoderCommit_ctrl v hc]; simpa using h
  | mem =>
    rw [decoderCommit_mem v hc]
    have := safeloadCheck_memory (s := memWrite s a.toNat v .current) a v (by simpa using memWrite_memory a.toNat v .current h)
    simpa using this

end Sys2Proof.Machine
end

