-- ==== Sys2Proof/Laws/Step.lean ====
section
/-! SUPPORT. What a step can do, and what the helpers of the decoder leave alone. -/

namespace Sys2Proof.Machine

open Sys2Proof

/-- If a step answers a next state, there was nothing to take, or the next event was decoded and its instruction run. -/
theorem step_cases {s t : State} (h : step s = .next t) :
    wellFormed s.cfg = true ∧
      ((s.input = [] ∧ t = s) ∨
       ∃ e rest i, s.input = e :: rest ∧ decode (contextOf s) e = .ok i ∧ exec i (s.setInput rest) = .next t) := by
  unfold step at h
  split at h
  · next hw =>
    refine ⟨hw, ?_⟩
    split at h
    · next hi => injection h with h; exact .inl ⟨hi, h.symm⟩
    · next e rest hi =>
      split at h
      · next i hd => exact .inr ⟨e, rest, i, hi, hd, h⟩
      · cases h
  · cases h

/-- Every instruction answers a next state: no event can fault, trap or be refused at run time (R9, R200). -/
theorem exec_next (i : Instr) (s : State) : ∃ t, exec i s = .next t := by
  cases i with
  | bulkRead start count page sink => cases sink <;> exact ⟨_, rfl⟩
  | regExport sink => cases sink <;> exact ⟨_, rfl⟩
  | _ => exact ⟨_, rfl⟩

/-- The class of an address is `Ctrl` exactly from `CTRL_BOUNDARY` on (20_memory.md R51). -/
theorem classOf_ctrl {a : Word16} : classOf a = .ctrl ↔ ctrlBoundary ≤ a.toNat := by
  unfold classOf; split <;> simp_all

theorem classOf_mem {a : Word16} : classOf a = .mem ↔ a.toNat < ctrlBoundary := by
  unfold classOf; split <;> simp_all

end Sys2Proof.Machine
end

