-- ==== Sys2Proof/Tests/Slice0.lean ====
section
/-! SUPPORT. The model's own tests: ill-formed terms that the checks refuse, every instruction's decoding from a word
written out bit by bit, the vectors of 95_test_vectors.md that are one step, and for every statement with hypotheses a
state and operands that meet them. Expected results are the spec's (the vector or rule named at each test). -/

namespace Sys2Proof.Tests

open Sys2Proof Sys2Proof.Machine Sys2Proof.Claims

/-! ### Well-formedness: what the checks refuse -/

/-- R101: `CA_WR` has bit 0 = 0. -/
theorem test_wf_refuses_caWr_with_read_bit : Instr.wf (.caWr 0b00000001#8) = false := by decide
/-- R102: `CA_RD` has bit 0 = 1. -/
theorem test_wf_refuses_caRd_with_write_bit : Instr.wf (.caRd 0b00000000#8) = false := by decide
/-- R89: `WR32_D3` is read in phase `Data3` of a write at a memory address only. -/
theorem test_readIn_refuses_other_contexts :
    Instr.readIn ⟨.data3, .read, .mem⟩ (.wr32D3 0) = false ∧ Instr.readIn ⟨.data3, .write, .ctrl⟩ (.wr32D3 0) = false ∧
    Instr.readIn ⟨.idle, .write, .ctrl⟩ (.saHi 0) = false := by decide

/-- `EX` with other regions. -/
def exRegions (l : List Region) : Params := { Config.ex with regions := l }
/-- `EX` with another register table. -/
def exTable (l : List RegEntry) : Params := { Config.ex with regTable := l }
/-- The page-select entry of `EX`. -/
def exPageEntry : RegEntry := ⟨0xF001, 0, .rwse, none, some .pageSelect⟩

theorem test_params_ex_wellFormed : wellFormed Config.ex = true := by decide
theorem test_params_item1_empty_region :
    windowsBounded (exRegions [⟨"x", .data, 0, 0⟩]) = false ∧ wellFormed (exRegions [⟨"x", .data, 0, 0⟩]) = false := by decide
theorem test_params_item1_region_past_boundary :
    windowsBounded (exRegions [⟨"x", .data, 0, 0xF001⟩]) = false ∧ windowsBounded (exRegions [⟨"x", .data, 0, 0xF000⟩]) = true := by
  decide
theorem test_params_item2_overlap :
    windowsDisjoint (exRegions [⟨"x", .data, 0, 0x11⟩, ⟨"y", .data, 0x10, 1⟩]) = false := by decide
theorem test_params_item3_four_regions :
    kindsCounted (exRegions (Config.ex.regions ++ [⟨"z", .data, 0x3000, 1⟩])) = false := by decide
theorem test_params_item4_base_zero :
    baseZeroRegion (exRegions [⟨"x", .data, 0, 0x10⟩]) = false ∧ baseZeroRegion (exRegions [⟨"x", .data, 1, 0x100⟩]) = false := by
  decide
theorem test_params_item6_addresses :
    tableAddresses (exTable [exPageEntry, exPageEntry]) = false ∧
    tableAddresses (exTable [⟨0xEFFF, 0, .rw, none, none⟩]) = false := by decide
theorem test_params_item7_page_select :
    onePageSelect (exTable []) = false ∧ onePageSelect (exTable [{ exPageEntry with addr := 0xF002 }]) = false ∧
    onePageSelect (exTable [{ exPageEntry with mode := .rw }]) = false := by decide
theorem test_params_item8_synthesized : synthReadOnly (exTable [⟨0xF000, 0, .rw, some 1, none⟩]) = false := by decide
theorem test_params_item9_tags :
    tagsMatchModes (exTable [⟨0xF000, 0, .rwse, none, none⟩]) = false ∧
    tagsMatchModes (exTable [⟨0xF000, 0, .rw, none, some .backupDomain⟩]) = false := by decide
theorem test_params_item10_triggers : triggersDistinct { Config.ex with trigB := 0x1006 } = false := by decide
theorem test_params_item11_outside : safeloadInside { Config.ex with ptrB := 0x0100 } = false := by decide
theorem test_params_memInit :
    memInitCanonical { Config.ex with memInit := [(0, 0)] } = false ∧
    memInitCanonical { Config.ex with memInit := [(1, 1), (0, 1)] } = false ∧
    memInitCanonical { Config.ex with memInit := [(0x100, 1)] } = false := by decide
/-- R11, D36: configuration refuses an ill-formed set. -/
theorem test_configure_refuses : goesOn (configure { Config.ex with trigB := 0x1006 }) = false := by decide

/-! ### Decoding: one word for each row of R89, written out from the row's pattern -/

theorem test_decode_caWr : decode ⟨.idle, .read, .ctrl⟩ (.transmit 0b10100110#8) = .ok (.caWr 0xA6#8) := by decide
theorem test_decode_caRd : decode ⟨.idle, .write, .mem⟩ (.transmit 0b10100111#8) = .ok (.caRd 0xA7#8) := by decide
theorem test_decode_saHi : decode ⟨.subAddressHigh, .write, .mem⟩ (.transmit 0b11110000#8) = .ok (.saHi 0xF0#8) := by decide
theorem test_decode_saLo : decode ⟨.subAddressLow, .read, .ctrl⟩ (.transmit 0b00010000#8) = .ok (.saLo 0x10#8) := by decide
theorem test_decode_wr16D0 : decode ⟨.data0, .write, .ctrl⟩ (.transmit 0b00010010#8) = .ok (.wr16D0 0x12#8) := by decide
theorem test_decode_wr16D1 : decode ⟨.data1, .write, .ctrl⟩ (.transmit 0b00110100#8) = .ok (.wr16D1 0x34#8) := by decide
theorem test_decode_rd16D0 : decode ⟨.data0, .read, .ctrl⟩ (.transmit 0b00000000#8) = .ok (.rd16D0 0x00#8) := by decide
theorem test_decode_rd16D1 : decode ⟨.data1, .read, .ctrl⟩ (.transmit 0b10101010#8) = .ok (.rd16D1 0xAA#8) := by decide
theorem test_decode_wr32D0 : decode ⟨.data0, .write, .mem⟩ (.transmit 0b00010001#8) = .ok (.wr32D0 0x11#8) := by decide
theorem test_decode_wr32D1 : decode ⟨.data1, .write, .mem⟩ (.transmit 0b00100010#8) = .ok (.wr32D1 0x22#8) := by decide
theorem test_decode_wr32D2 : decode ⟨.data2, .write, .mem⟩ (.transmit 0b00110011#8) = .ok (.wr32D2 0x33#8) := by decide
theorem test_decode_wr32D3 : decode ⟨.data3, .write, .mem⟩ (.transmit 0b00101010#8) = .ok (.wr32D3 0x2A#8) := by decide
theorem test_decode_rd32D0 : decode ⟨.data0, .read, .mem⟩ (.transmit 0b00000000#8) = .ok (.rd32D0 0x00#8) := by decide
theorem test_decode_rd32D1 : decode ⟨.data1, .read, .mem⟩ (.transmit 0b00000001#8) = .ok (.rd32D1 0x01#8) := by decide
theorem test_decode_rd32D2 : decode ⟨.data2, .read, .mem⟩ (.transmit 0b00000010#8) = .ok (.rd32D2 0x02#8) := by decide
theorem test_decode_rd32D3 : decode ⟨.data3, .read, .mem⟩ (.transmit 0b00000011#8) = .ok (.rd32D3 0x03#8) := by decide
theorem test_decode_signals :
    decode ⟨.data2, .read, .ctrl⟩ .selAssert = .ok .selAssert ∧ decode ⟨.idle, .read, .ctrl⟩ .selDeassert = .ok .selDeassert ∧
    decode ⟨.data3, .write, .ctrl⟩ .reset = .ok .reset ∧
    decode ⟨.data1, .write, .mem⟩ (.bulkRead 0x000F 3 .A .ok) = .ok (.bulkRead 0x000F 3 .A .ok) ∧
    decode ⟨.data1, .write, .mem⟩ (.regExport .ok) = .ok (.regExport .ok) := by decide
/-- R89: the two pairs that are refused by name. -/
theorem test_decode_refuses_late_control :
    decode ⟨.data2, .write, .ctrl⟩ (.transmit 0) = .error .data2InControlSpace ∧
    decode ⟨.data3, .read, .ctrl⟩ (.transmit 0) = .error .data3InControlSpace := by decide
theorem test_decodeTableWord :
    decodeTableWord 8 0x10 = some (.caWr 0x10) ∧ decodeTableWord 8 0xFF = some (.caRd 0xFF) ∧ decodeTableWord 0 0 = none := by
  decide

/-! ### One step of every instruction -/

/-- A state of `EX` in a phase of a transaction, with memory words and events to take. -/
def stateAt (x : DecoderState) (d : Direction) (a : Word16) (u : Buf) (m : Memory) (l : List Event) : State :=
  { State.reset with tState := x, tDir := d, tAddr := a, tBuf := u, mem := m, input := l }

/-- The same with nothing in the buffer, in memory or to take. -/
def phaseAt (x : DecoderState) (d : Direction) (a : Word16) : State := stateAt x d a ⟨0, 0, 0, 0⟩ [] []

/-- The memory of the common setup `SL`: `w0`, `w1`, `w2` at `DM1[A][0..2]` and the pointer `0x40` at `DM1[A][5]`. -/
def slMemory : Memory := [(0x20000, 0x11111111), (0x20001, 0x22222222), (0x20002, 0x33333333), (0x20005, 0x40)]

/-- H3: `TX 10` in `S0`. -/
theorem test_caWr_warns :
    (nextState? (exec (.caWr 0x10) State.reset)).map (fun t => (t.tDir, t.tState, t.trace)) =
      some (.write, .subAddressHigh, [.log (.warnChipId 0x10), .reply 0xFF]) := by decide
/-- H2: `TX 01` in `S0`. -/
theorem test_caRd_sets_read :
    (nextState? (exec (.caRd 0x01) State.reset)).map (fun t => (t.tDir, t.tState, t.trace)) =
      some (.read, .subAddressHigh, [.reply 0xFF]) := by decide
/-- H7: `TX EF`; the stale low byte stays until the next byte. -/
theorem test_saHi_keeps_low_byte :
    (nextState? (exec (.saHi 0xEF) (phaseAt .subAddressHigh .write 0x1234))).map (fun t => (t.tAddr, t.tState)) =
      some (0xEF34, .subAddressLow) := by decide
/-- H5: `TX CD` after `TX AB`. -/
theorem test_saLo_completes_address :
    (nextState? (exec (.saLo 0xCD) (phaseAt .subAddressLow .write 0xAB34))).map (fun t => (t.tAddr, t.tState, t.trace)) =
      some (0xABCD, .data0, [.reply 0xFF]) := by decide
/-- R105's example. -/
theorem test_wr16D0_fills_buffer :
    (nextState? (exec (.wr16D0 0x12) (phaseAt .data0 .write 0xF000))).map (fun t => (t.tBuf, t.tState, t.reg)) =
      some (⟨0x12, 0, 0, 0⟩, .data1, State.reset.reg) := by decide
/-- WR16-1. -/
theorem test_wr16D1_stores :
    (nextState? (exec (.wr16D1 0x34) (stateAt .data1 .write 0xF000 ⟨0x12, 0, 0, 0⟩ [] []))).map
      (fun t => (regGet t.reg 0xF000, t.tAddr, t.tState)) = some (0x1234, 0xF001, .data0) := by decide
/-- WR16-4 and the wrap of WR16-9: the page-select write sets page B; the address after `0xFFFF` is `0x0000`. -/
theorem test_wr16D1_page_and_wrap :
    (nextState? (exec (.wr16D1 1) (phaseAt .data1 .write 0xF001))).map (fun t => (t.page, regGet t.reg 0xF001)) = some (.B, 1) ∧
    (nextState? (exec (.wr16D1 0x78) (stateAt .data1 .write 0xFFFF ⟨0x56, 0, 0, 0⟩ [] []))).map
      (fun t => (t.tAddr, regGet t.reg 0xFFFF)) = some (0, 0x5678) := by decide
/-- RD16-4: the synthesized register; RD16-5: the unmapped one. -/
theorem test_rd16D0_replies_high_byte :
    (nextState? (exec (.rd16D0 0xAA) (phaseAt .data0 .read 0xF002))).map (fun t => (t.tBuf.b1, t.trace)) = some (1, [.reply 0]) ∧
    (nextState? (exec (.rd16D0 0) (phaseAt .data0 .read 0xF0FF))).map (fun t => t.trace) =
      some [.log (.errReadUnmapped 0xF0FF), .reply 0] := by decide
/-- R108's example. -/
theorem test_rd16D1_replies_low_byte :
    (nextState? (exec (.rd16D1 0xBB) (stateAt .data1 .read 0xF002 ⟨0, 1, 0, 0⟩ [] []))).map
      (fun t => (t.trace, t.tAddr, t.tState)) = some ([.reply 1], 0xF003, .data0) := by decide
/-- WR32-2, byte by byte. -/
theorem test_wr32_early_bytes :
    (nextState? (exec (.wr32D0 0x11) (phaseAt .data0 .write 0x20))).map (fun t => (t.tBuf, t.tState)) = some (⟨0x11, 0, 0, 0⟩, .data1) ∧
    (nextState? (exec (.wr32D1 0x22) (phaseAt .data1 .write 0x20))).map (fun t => (t.tBuf, t.tState)) = some (⟨0, 0x22, 0, 0⟩, .data2) ∧
    (nextState? (exec (.wr32D2 0x33) (phaseAt .data2 .write 0x20))).map (fun t => (t.tBuf, t.tState)) = some (⟨0, 0, 0x33, 0⟩, .data3) := by
  decide
/-- WR32-2, the commit. -/
theorem test_wr32D3_stores :
    (nextState? (exec (.wr32D3 0x44) (stateAt .data3 .write 0x20 ⟨0x11, 0x22, 0x33, 0⟩ [] []))).map
      (fun t => (t.mem, t.tAddr, t.tState)) = some ([(0x20, 0x11223344)], 0x21, .data0) := by decide
/-- S1: the safeload of three words. -/
theorem test_wr32D3_safeload :
    (nextState? (exec (.wr32D3 3) (stateAt .data3 .write 0x1006 ⟨0, 0, 0, 0⟩ slMemory []))).map (fun t => t.mem) =
      some ([(0x40, 0x11111111), (0x41, 0x22222222), (0x42, 0x33333333)] ++ slMemory ++ [(0x20006, 3)]) := by decide
/-- RD32-2: the first byte latches the word; RD32-3: an unmapped address. -/
theorem test_rd32D0_latches :
    (nextState? (exec (.rd32D0 0) (stateAt .data0 .read 0x20 ⟨0, 0, 0, 0⟩ [(0x20, 0x11223344)] []))).map
      (fun t => (t.tBuf, t.trace)) = some (⟨0x11, 0x22, 0x33, 0x44⟩, [.reply 0x11]) ∧
    (nextState? (exec (.rd32D0 0) (phaseAt .data0 .read 0x0100))).map (fun t => t.trace) =
      some [.log (.errReadUnmapped 0x0100), .reply 0] := by decide
/-- RD32-2, the later bytes; the address after `0xEFFF` is `0xF000` (R116). -/
theorem test_rd32_later_bytes :
    (nextState? (exec (.rd32D1 0) (stateAt .data1 .read 0x20 ⟨0x11, 0x22, 0x33, 0x44⟩ [] []))).map
      (fun t => (t.trace, t.tState)) = some ([.reply 0x22], .data2) ∧
    (nextState? (exec (.rd32D2 0) (stateAt .data2 .read 0x20 ⟨0x11, 0x22, 0x33, 0x44⟩ [] []))).map
      (fun t => (t.trace, t.tState)) = some ([.reply 0x33], .data3) ∧
    (nextState? (exec (.rd32D3 0) (stateAt .data3 .read 0xEFFF ⟨0x11, 0x22, 0x33, 0x44⟩ [] []))).map
      (fun t => (t.trace, t.tState, t.tAddr)) = some ([.reply 0x44], .data0, 0xF000) := by decide
/-- D4 and D2. -/
theorem test_selection :
    (nextState? (exec .selAssert (phaseAt .data1 .read 0x20))).map (fun t => t.tState) = some .data1 ∧
    (nextState? (exec .selDeassert (phaseAt .subAddressLow .read 0xF000))).map (fun t => (t.tState, t.tAddr)) =
      some (.idle, 0xF000) := by decide
/-- RS1's state before the reset. -/
def beforeReset : State :=
  { phaseAt .data1 .write 0x20 with reg := regSet State.reset.reg 0xF000 0xBEEF, page := .B, mem := [(0x10010, 0x55)] }

/-- RS1: registers and page reset, memory kept. -/
theorem test_reset_keeps_memory :
    (nextState? (exec .reset beforeReset)).map (fun t => (t.reg, t.page)) = some (State.reset.reg, .A) ∧
    (nextState? (exec .reset beforeReset)).map (fun t => (t.mem, t.tState)) = some ([(0x10010, 0x55)], .idle) := by decide
/-- RS3: with `PAGE_ON_RESET = Unchanged` the page stays. -/
theorem test_reset_may_keep_page :
    (nextState? (exec .reset { beforeReset with cfg := { Config.ex with pageOnReset := .unchanged } })).map (fun t => t.page) =
      some .B := by decide
/-- B1, B3. -/
theorem test_bulkRead :
    (nextState? (exec (.bulkRead 0x000F 3 .A .ok) (stateAt .idle .write 0 ⟨0, 0, 0, 0⟩ [(0x10, 0x2A)] []))).map (fun t => t.trace) =
      some [.bulkRead [0, 0x2A, 0] [0, 0, 0, 0, 0, 0, 0, 0x2A, 0, 0, 0, 0]] ∧
    (nextState? (exec (.bulkRead 0xEFFE 3 .A .ok) State.reset)).map (fun t => t.trace) =
      some [.bulkRead [0, 0, 0] [0, 0, 0, 0, 0, 0, 0, 0, 0, 0, 0, 0]] := by decide
/-- E-1, E-3. -/
theorem test_regExport :
    (nextState? (exec (.regExport .ok) State.reset)).map (fun t => t.trace) =
      some [.regExport [(0xF000, 0), (0xF001, 0), (0xF002, 1), (0xF003, 0xA5A5), (0xF004, 0), (0xFFFF, 0x1234)]] ∧
    (nextState? (exec (.regExport (.err "m")) State.reset)).map (fun t => t.trace) = some [.exportFailed "m"] := by decide
/-- The step right after reset on a table word runs that word's instruction. -/
theorem test_step_runs_fetched_word :
    (nextState? (step (State.reset.withFetchWord 8 1))).map (fun t => (t.tDir, t.tState, t.input)) =
      some (.read, .subAddressHigh, []) := by decide
/-- R89, U3: the invariant fault. -/
theorem test_step_faults :
    goesOn (step (stateAt .data2 .write 0xF000 ⟨0, 0, 0, 0⟩ [] [.transmit 0])) = false := by decide
/-- PG-3, PG-4, PG-7, PG-8. -/
theorem test_resolve :
    resolve { State.reset with page := .B } 0x1006 .current = some ⟨1, .B, 6⟩ ∧
    resolve { State.reset with page := .B } 0x1006 .forceA = some ⟨1, .A, 6⟩ ∧
    resolve State.reset 0x0100 .current = none ∧ resolve State.reset 0xF000 .forceA = none ∧
    resolve State.reset 0x10000 .forceA = none := by decide
/-- WR32-5's bytes, by the expansion of R91. -/
theorem test_writeTransaction :
    writeTransaction Config.ex 0xEFFF [0x01020304, 0xABCD] =
      .selAssert :: (transmits [0x00, 0xEF, 0xFF, 1, 2, 3, 4, 0xAB, 0xCD] ++ [.selDeassert]) := by decide

/-! ### Witnesses: every statement's hypotheses are met somewhere, at the edges of their ranges -/

/-- A state with the invariant, for the statements that ask for it. -/
theorem inv_stateAt (x : DecoderState) (d : Direction) (a : Word16) (u : Buf) (l : List Event)
    (h : x = .data2 ∨ x = .data3 → a.toNat < ctrlBoundary) : Inv (stateAt x d a u slMemory l) :=
  ⟨show wellFormed Config.ex = true by decide, h, rfl,
    show ∀ e ∈ Config.ex.regTable, e.mode = .ro → regGet State.reset.reg e.addr = e.reset by decide,
    show Memory.wf slMemory = true ∧ Memory.placed Config.ex.regions slMemory = true by decide⟩

theorem witness_DecodeOfEncode :
    Instr.wf (.caRd 0xFF) = true ∧ Instr.readIn ⟨.idle, .write, .mem⟩ (.caRd 0xFF) = true ∧
    Instr.wf (.wr32D3 0) = true ∧ Instr.readIn ⟨.data3, .write, .mem⟩ (.wr32D3 0) = true := by decide
theorem witness_TransactionLength :
    (∀ j < [0#32, 1#32].length, ctrlBoundary ≤ ((0xFFFE : Word16) + BitVec.ofNat 16 j).toNat) ∧
    (∀ j < [0#32].length, ctrlBoundary ≤ ((0xF000 : Word16) + BitVec.ofNat 16 j).toNat) ∧
    (∀ j < [0#32, 1#32].length, ((0xEFFE : Word16) + BitVec.ofNat 16 j).toNat < ctrlBoundary) := by decide
theorem witness_StepRunsDecoded :
    wellFormed State.reset.cfg = true ∧ (State.reset.withFetchWord 8 1).input = [.transmit 1] ∧
    decode ⟨State.reset.tState, State.reset.tDir, classOf State.reset.tAddr⟩ (.transmit 1) = .ok (.caRd 1) := by decide
theorem witness_StepWithoutEvent : wellFormed State.reset.cfg = true ∧ State.reset.input = [] := by decide
theorem witness_IllFormed :
    wellFormed { Config.ex with trigB := 0x1006 } = false ∧
    wellFormed { State.reset with cfg := { Config.ex with trigB := 0x1006 } }.cfg = false := by decide
/-- Both sides of the fault statement: the two pairs at the boundary address, and a step that does not fault. -/
theorem witness_StepFaults :
    step (stateAt .data2 .read 0xF000 ⟨0, 0, 0, 0⟩ [] [.transmit 0]) = .fault .data2InControlSpace ∧
    step (stateAt .data3 .write 0xFFFF ⟨0, 0, 0, 0⟩ [] [.transmit 0]) = .fault .data3InControlSpace ∧
    goesOn (step (stateAt .data3 .write 0xEFFF ⟨0, 0, 0, 0⟩ [] [.transmit 0])) = true :=
  ⟨by rfl, by rfl, by decide⟩
theorem witness_Inv : Inv (stateAt .data3 .write 0x1006 ⟨0, 0, 0, 0⟩ slMemory [.transmit 3]) :=
  inv_stateAt .data3 .write 0x1006 _ _ (by decide)
/-- Each row of the transition statement: both classes in `Data1` at the boundary addresses, and the two signals. -/
theorem witness_Transition :
    goesOn (step (stateAt .data1 .write 0xF000 ⟨0, 0, 0, 0⟩ slMemory [.transmit 0])) = true ∧
    goesOn (step (stateAt .data1 .read 0xEFFF ⟨0, 0, 0, 0⟩ slMemory [.transmit 0])) = true ∧
    goesOn (step (stateAt .data2 .read 0xEFFF ⟨0, 0, 0, 0⟩ slMemory [.transmit 0])) = true ∧
    goesOn (step (stateAt .data3 .read 0x0000 ⟨0, 0, 0, 0⟩ slMemory [.transmit 0])) = true ∧
    goesOn (step (stateAt .idle .read 0x0000 ⟨0, 0, 0, 0⟩ slMemory [.transmit 0])) = true ∧
    goesOn (step (stateAt .data1 .write 0xF000 ⟨0, 0, 0, 0⟩ slMemory [.selDeassert])) = true ∧
    goesOn (step (stateAt .data1 .write 0xF000 ⟨0, 0, 0, 0⟩ slMemory [.reset])) = true := by decide
/-- The register-write statements, by mode, and at the first and last control addresses. -/
theorem witness_RegisterWrites :
    ctrlBoundary ≤ (phaseAt .data1 .write 0xF0FF).tAddr.toNat ∧ lookup State.reset.cfg.regTable 0xF0FF = none ∧
    lookup State.reset.cfg.regTable 0xF003 = some ⟨0xF003, 0xA5A5, .ro, none, none⟩ ∧
    lookup State.reset.cfg.regTable 0xF000 = some ⟨0xF000, 0, .rw, none, none⟩ ∧ ctrlBoundary ≤ (0xF000 : Word16).toNat ∧
    lookup State.reset.cfg.regTable 0xFFFF = some ⟨0xFFFF, 0x1234, .rw, none, none⟩ ∧
    lookup State.reset.cfg.regTable 0xF001 = some ⟨0xF001, 0, .rwse, none, some .pageSelect⟩ ∧
    lookup State.reset.cfg.regTable 0xF004 = some ⟨0xF004, 0, .rwse, none, some .backupDomain⟩ := by decide
theorem witness_UnmappedMemoryWrite :
    (phaseAt .data3 .write 0xEFFF).tAddr.toNat < ctrlBoundary ∧ resolve (phaseAt .data3 .write 0xEFFF) 0xEFFF .current = none ∧
    resolve (phaseAt .data3 .write 0x0100) 0x0100 .current = none ∧ (0xEFFF : Word16) ≠ Config.ex.trigA ∧
    (0xEFFF : Word16) ≠ Config.ex.trigB := by decide
/-- A mapped address that is no trigger, at a window's edge, and a trigger with a count of zero. -/
theorem witness_MemoryWrite :
    Memory.wf slMemory = true ∧ resolve (phaseAt .data3 .write 0x00FF) 0x00FF .current ≠ none ∧
    (0x00FF : Word16) ≠ Config.ex.trigA ∧ (0x00FF : Word16) ≠ Config.ex.trigB ∧
    resolve (phaseAt .data3 .write 0x1006) 0x1006 .current ≠ none ∧ (written32 (phaseAt .data3 .write 0x1006) 0).toNat = 0 := by
  decide
theorem witness_Trigger :
    wellFormed (phaseAt .data3 .write 0x1006).cfg = true ∧ (phaseAt .data3 .write 0x1006).tAddr = trigOf Config.ex .A ∧
    (phaseAt .data3 .write 0x100E).tAddr = trigOf Config.ex .B ∧ 1 ≤ (written32 (phaseAt .data3 .write 0x1006) 1).toNat := by
  decide
/-- The disjoint copy: the destination below the staging words, and just above them. -/
theorem witness_DisjointCopy :
    let s := stateAt .data3 .write 0x1006 ⟨0, 0, 0, 0⟩ slMemory []
    let s' := stateAt .data3 .write 0x1006 ⟨0, 0, 0, 0⟩ [(0x20000, 1), (0x20005, 0x1003)] []
    Memory.wf s.mem = true ∧ (written32 s 3).toNat = 3 ∧
    pointerWord (afterStore s 3) .A + 3 ≤ (stageOf s.cfg .A).toNat ∧
    resolve s (pointerWord (afterStore s 3) .A + 2) .forceA ≠ none ∧
    (stageOf s'.cfg .A).toNat + 3 ≤ pointerWord (afterStore s' 3) .A := by decide
theorem witness_Rd16D0 :
    ctrlBoundary ≤ (phaseAt .data0 .read 0xF000).tAddr.toNat ∧ (lookup State.reset.cfg.regTable 0xF000).isSome = true ∧
    (lookup State.reset.cfg.regTable 0xF002).isSome = true ∧ lookup State.reset.cfg.regTable 0xFFFE = none := by decide
theorem witness_Rd32D0 :
    (phaseAt .data0 .read 0xEFFF).tAddr.toNat < ctrlBoundary ∧ (phaseAt .data0 .read 0x0000).tAddr.toNat < ctrlBoundary ∧
    resolve (phaseAt .data0 .read 0x0000) 0 .current ≠ none := by decide
theorem witness_Reset : wellFormed State.reset.cfg = true ∧ RegsDeclared State.reset := ⟨by decide, rfl⟩
theorem witness_Export : wellFormed State.reset.cfg = true := by decide
/-- The resolve statement, at both edges of a window. -/
theorem witness_Resolve :
    wellFormed State.reset.cfg = true ∧ resolve State.reset 0x1000 .forceB = some ⟨1, .B, 0⟩ ∧
    resolve State.reset 0x10FF .current = some ⟨1, .A, 0xFF⟩ ∧ resolve State.reset 0x1100 .current = none := by decide
theorem witness_Construction : wellFormed { Config.ex with memInit := slMemory } = true := by decide
theorem witness_StepKeepsInv :
    Inv (stateAt .data3 .write 0x1006 ⟨0, 0, 0, 0⟩ slMemory [.transmit 3]) ∧
    goesOn (step (stateAt .data3 .write 0x1006 ⟨0, 0, 0, 0⟩ slMemory [.transmit 3])) = true :=
  ⟨inv_stateAt .data3 .write 0x1006 _ _ (by decide), by decide⟩
theorem witness_PageAgrees :
    Config.ex.pageOnReset = .fromRegisterReset ∧ PageAgrees (stateAt .data1 .write 0xF001 ⟨0, 0, 0, 0⟩ [] [.transmit 1]) ∧
    (nextState? (step (stateAt .data1 .write 0xF001 ⟨0, 0, 0, 0⟩ [] [.transmit 1]))).map (fun t => t.page) = some .B :=
  ⟨rfl, rfl, by decide⟩
/-- Steps that change memory, a register and the page, so that the rules on who may change them say something. -/
theorem witness_Changes :
    (nextState? (step (stateAt .data3 .write 0x20 ⟨0, 0, 0, 0⟩ [] [.transmit 1]))).map (fun t => t.mem) = some [(0x20, 1)] ∧
    (nextState? (step (stateAt .data1 .write 0xF000 ⟨0, 0, 0, 0⟩ [] [.transmit 1]))).map (fun t => regGet t.reg 0xF000) = some 1 ∧
    (nextState? (step { stateAt .idle .write 0 ⟨0, 0, 0, 0⟩ [] [.reset] with reg := [(0xF000, 1)] })).map
      (fun t => regGet t.reg 0xF000) = some 0 ∧
    (nextState? (step (stateAt .data1 .write 0xF001 ⟨0, 0, 0, 0⟩ [] [.transmit 1]))).map (fun t => t.page) = some .B ∧
    (nextState? (step { stateAt .idle .write 0 ⟨0, 0, 0, 0⟩ [] [.reset] with page := .B })).map (fun t => t.page) = some .A := by
  decide
theorem witness_StepObserves : goesOn (step (stateAt .idle .write 0 ⟨0, 0, 0, 0⟩ [] [.transmit 0x10])) = true := by decide
theorem witness_IdleHides :
    SameButTransaction (stateAt .idle .write 0 ⟨0, 0, 0, 0⟩ slMemory [.transmit 1, .transmit 0xF0])
      (stateAt .idle .read 0xABCD ⟨1, 2, 3, 4⟩ slMemory [.transmit 1, .transmit 0xF0]) ∧
    goesOn (stepN 2 (stateAt .idle .write 0 ⟨0, 0, 0, 0⟩ slMemory [.transmit 1, .transmit 0xF0])) = true :=
  ⟨⟨rfl, rfl, rfl, rfl, rfl, rfl, rfl⟩, by decide⟩
/-- The write-then-read statement at an address that is no trigger, and at a trigger whose copy runs in the other page. -/
theorem witness_MemoryWriteThenRead :
    (Inv (stateAt .idle .write 0 ⟨0, 0, 0, 0⟩ slMemory []) ∧ resolve (stateAt .idle .write 0 ⟨0, 0, 0, 0⟩ slMemory []) 0x10 .current ≠ none ∧
      ¬ copyRewrites (stateAt .idle .write 0 ⟨0, 0, 0, 0⟩ slMemory []) 0x10 0x2A) ∧
    ¬ copyRewrites (stateAt .idle .write 0 ⟨0, 0, 0, 0⟩ slMemory []) 0x100E 1 := by
  refine ⟨⟨inv_stateAt .idle .write 0 _ _ (by decide), by decide, ?_⟩, ?_⟩
  · rintro ⟨p, h, -⟩; cases p <;> revert h <;> decide
  · rintro ⟨p, h, -, hp, -⟩; cases p
    · revert h; decide
    · cases hp
theorem witness_RegisterWriteThenRead :
    Inv (stateAt .idle .write 0 ⟨0, 0, 0, 0⟩ slMemory []) ∧ (⟨0xF001, 0, .rwse, none, some .pageSelect⟩ : RegEntry) ∈ Config.ex.regTable ∧
    (⟨0xF002, 0, .ro, some 1, none⟩ : RegEntry) ∈ Config.ex.regTable ∧ (⟨0xFFFF, 0x1234, .rw, none, none⟩ : RegEntry) ∈ Config.ex.regTable :=
  ⟨inv_stateAt .idle .write 0 _ _ (by decide), by decide, by decide, by decide⟩
/-- A burst that starts at the last memory address and one at the last control address. -/
theorem witness_WriteBurst :
    wellFormed (phaseAt .data0 .write 0xEFFF).cfg = true ∧ (phaseAt .data0 .write 0xEFFF).tState = .data0 ∧
    (phaseAt .data0 .write 0xFFFF).tDir = .write := by decide
/-- Read bursts from the last memory address, into control space, and from the last control address, past the wrap; the
observations at both sides of the boundary, and at a declared, a synthesized and an unmapped register. -/
theorem witness_ReadBurst :
    (wellFormed (phaseAt .data0 .read 0xEFFF).cfg = true ∧ (phaseAt .data0 .read 0xEFFF).tState = .data0 ∧
      (phaseAt .data0 .read 0xFFFF).tDir = .read) ∧
    readObservations (phaseAt .data0 .read 0xEFFF) 0xEFFF =
      [.log (.errReadUnmapped 0xEFFF), .reply 0, .reply 0, .reply 0, .reply 0] ∧
    readObservations (phaseAt .data0 .read 0xF000) 0xF000 = [.reply 0, .reply 0] ∧
    readObservations (phaseAt .data0 .read 0xF002) 0xF002 = [.reply 0, .reply 1] ∧
    readObservations (phaseAt .data0 .read 0xFFFF) 0xFFFF = [.reply 0x12, .reply 0x34] ∧
    readObservations (phaseAt .data0 .read 0xFFFE) 0xFFFE = [.log (.errReadUnmapped 0xFFFE), .reply 0, .reply 0] := by decide

end Sys2Proof.Tests
end

/-! PROOFS. Address resolution (20_memory.md R54 to R56): the disjointness of the windows makes the region an address
lies in unique, so the first match `findRegion` takes is the only one. -/

namespace Sys2Proof.Machine

open Sys2Proof

/-- Item 2 of R11: a well-formed parameter set's windows do not overlap. -/
theorem allApart_of_wellFormed {p : Params} (h : wellFormed p = true) : allApart p.regions = true := by
  simp only [wellFormed, windowsDisjoint, Bool.and_eq_true] at h
  tauto

/-- Two windows that are apart share no address. -/
theorem windowsApart_not_both {r g : Region} {addr : Nat} (h : windowsApart r g = true)
    (hlo : g.base ≤ addr) (hhi : addr < g.base + g.size) : ¬ (r.base ≤ addr ∧ addr < r.base + r.size) := by
  simp only [windowsApart, decide_eq_true_eq] at h
  omega

/-- The converse of `findRegion_some`: among windows that do not overlap, the search finds the region whose window holds
the address, at that region's position. -/
theorem findRegion_of_window {regions : List Region} {addr k : Nat} {g : Region} (n : Nat)
    (hapart : allApart regions = true) (hg : regions[k]? = some g)
    (hlo : g.base ≤ addr) (hhi : addr < g.base + g.size) :
    findRegion regions addr n = some (n + k, addr - g.base) := by
  induction regions generalizing n k with
  | nil => simp at hg
  | cons r rest ih =>
    simp only [allApart, Bool.and_eq_true, List.all_eq_true] at hapart
    obtain ⟨hfirst, hrest⟩ := hapart
    cases k with
    | zero =>
      obtain rfl : r = g := by simpa using hg
      simp [findRegion, hlo, hhi]
    | succ k =>
      have hg' : rest[k]? = some g := by simpa using hg
      have hskip := windowsApart_not_both (hfirst g (List.mem_of_getElem? hg')) hlo hhi
      have hpos : n + (k + 1) = n + 1 + k := by omega
      rw [findRegion, if_neg hskip, ih (n + 1) hrest hg', hpos]

/-- The converse of `resolve_some`: an address below `CTRL_BOUNDARY` in the window of a place's region resolves to that
place, in the page of the override (R55). -/
theorem resolve_of_window {s : State} {addr : Nat} {ovr : Override} {q : Place} {g : Region}
    (hapart : allApart s.cfg.regions = true) (hlt : addr < ctrlBoundary) (hpage : q.page = pageOf s ovr)
    (hg : s.cfg.regions[q.region]? = some g) (hlo : g.base ≤ addr) (hhi : addr < g.base + g.size)
    (hidx : q.index = addr - g.base) : resolve s addr ovr = some q := by
  obtain ⟨r, p, i⟩ := q
  subst hpage hidx
  simp [resolve, Nat.not_le.mpr hlt, findRegion_of_window 0 hapart hg hlo hhi]

/-- Resolution in full, for windows that do not overlap (R55). -/
theorem resolve_eq_some_iff {s : State} (hapart : allApart s.cfg.regions = true) (addr : Nat) (ovr : Override)
    (q : Place) :
    resolve s addr ovr = some q ↔
      addr < ctrlBoundary ∧
      (∃ g, s.cfg.regions[q.region]? = some g ∧ g.base ≤ addr ∧ addr < g.base + g.size ∧ q.index = addr - g.base) ∧
      q.page = pageOf s ovr := by
  constructor
  · intro h
    obtain ⟨hlt, hpage, hwindow⟩ := resolve_some h
    exact ⟨hlt, hwindow, hpage⟩
  · rintro ⟨hlt, ⟨g, hg, hlo, hhi, hidx⟩, hpage⟩
    exact resolve_of_window hapart hlt hpage hg hlo hhi hidx

/-- Settles O36: the windows of a well-formed set do not overlap, and `pageOf` is the override's page in each case
(R56). -/
theorem resolveFindsTheWindow : Obligations.ResolveFindsTheWindow := by
  intro s addr ovr q hwf
  have hiff := resolve_eq_some_iff (allApart_of_wellFormed hwf) addr ovr q
  cases ovr with
  | current => exact hiff
  | forceA => exact hiff
  | forceB => exact hiff

end Sys2Proof.Machine

/-! PROOFS. The bytes of a transaction that take effect in `T` alone (40_protocol_decoder.md R103, R105, R109 to R111,
R114, R115). Their rules are made of named updates; each is read here as the record of the fields it writes. -/

namespace Sys2Proof.Machine

open Sys2Proof Sys2Proof.Claims

/-! ### The rules as their named updates -/

theorem exec_saHi (b : Byte) (s : State) :
    exec (.saHi b) s = .next ((s.setAddr (withHighByte s.tAddr b)).setPhase .subAddressLow).answerDefault := rfl

theorem exec_wr16D0 (b : Byte) (s : State) :
    exec (.wr16D0 b) s = .next ((s.setBuf { s.tBuf with b0 := b }).setPhase .data1).answerDefault := rfl

theorem exec_wr32D0 (b : Byte) (s : State) :
    exec (.wr32D0 b) s = .next ((s.setBuf { s.tBuf with b0 := b }).setPhase .data1).answerDefault := rfl

theorem exec_wr32D1 (b : Byte) (s : State) :
    exec (.wr32D1 b) s = .next ((s.setBuf { s.tBuf with b1 := b }).setPhase .data2).answerDefault := rfl

theorem exec_wr32D2 (b : Byte) (s : State) :
    exec (.wr32D2 b) s = .next ((s.setBuf { s.tBuf with b2 := b }).setPhase .data3).answerDefault := rfl

theorem exec_rd32D1 (b : Byte) (s : State) :
    exec (.rd32D1 b) s = .next ((s.setPhase .data2).answer s.tBuf.b1) := rfl

theorem exec_rd32D2 (b : Byte) (s : State) :
    exec (.rd32D2 b) s = .next ((s.setPhase .data3).answer s.tBuf.b2) := rfl

/-! ### The shared shapes as records -/

/-- A header byte's shape: the address and the phase are written, and the default reply is given (R86). -/
theorem setAddr_setPhase_answerDefault (s : State) (a : Word16) (x : DecoderState) :
    ((s.setAddr a).setPhase x).answerDefault =
      { s with tAddr := a, tState := x, trace := s.trace ++ [defaultReply s] } := rfl

/-- An early write byte's shape: the buffer and the phase are written, and the default reply is given (R86). -/
theorem setBuf_setPhase_answerDefault (s : State) (u : Buf) (x : DecoderState) :
    ((s.setBuf u).setPhase x).answerDefault =
      { s with tBuf := u, tState := x, trace := s.trace ++ [defaultReply s] } := rfl

/-- A middle read byte's shape: the phase is written, and the byte is replied. -/
theorem setPhase_answer (s : State) (x : DecoderState) (b : Byte) :
    (s.setPhase x).answer b = { s with tState := x, trace := s.trace ++ [.reply b] } := rfl

/-- `T.addr[15:8] <- b` (R82) in numbers: the byte counts 256 each, and the low byte is the remainder by 256. -/
theorem withHighByte_eq_ofNat (a : Word16) (b : Byte) :
    withHighByte a b = BitVec.ofNat 16 (b.toNat * 256 + a.toNat % 256) := by
  have hlow : a.toNat % 2 ^ 8 < 2 ^ 8 := Nat.mod_lt _ (by decide)
  have hsum : b.toNat <<< 8 ||| a.toNat % 2 ^ 8 = b.toNat * 2 ^ 8 + a.toNat % 2 ^ 8 := by
    rw [← Nat.shiftLeft_add_eq_or_of_lt hlow, Nat.shiftLeft_eq]
  apply BitVec.eq_of_toNat_eq
  simp only [withHighByte, BitVec.toNat_append, BitVec.extractLsb'_toNat, Nat.shiftRight_zero, BitVec.toNat_ofNat, hsum]
  omega

/-! ### The statements -/

/-- Settles O13: the address written is the high byte over the stale low byte (R103). -/
theorem saHiSetsHighAddressByte : Obligations.SaHiSetsHighAddressByte := by
  intro b s
  rw [exec_saHi, setAddr_setPhase_answerDefault, withHighByte_eq_ofNat]

/-- Settles O15: the four rules have one shape, with the byte's place in `T.buf` and the next phase as its parameters. -/
theorem earlyWriteBytesOnlyFillBuffer : Obligations.EarlyWriteBytesOnlyFillBuffer := by
  intro b s
  refine ⟨?wr16D0, ?wr32D0, ?wr32D1, ?wr32D2⟩
  case wr16D0 => rw [exec_wr16D0, setBuf_setPhase_answerDefault]
  case wr32D0 => rw [exec_wr32D0, setBuf_setPhase_answerDefault]
  case wr32D1 => rw [exec_wr32D1, setBuf_setPhase_answerDefault]
  case wr32D2 => rw [exec_wr32D2, setBuf_setPhase_answerDefault]

/-- Settles O27: both rules have one shape, with the replied byte and the next phase as its parameters; the incoming byte
is ignored (R85). -/
theorem middleReadBytesReplyFromBuffer : Obligations.MiddleReadBytesReplyFromBuffer := by
  intro b s
  constructor
  case left => rw [exec_rd32D1, setPhase_answer]
  case right => rw [exec_rd32D2, setPhase_answer]

end Sys2Proof.Machine

/-! PROOFS. The register bank at a control address with no register (41_register_bank.md R149): what the bank and the
decoder's helpers answer there, and the 16-bit word's bytes as the records they write. -/

namespace Sys2Proof.Machine

open Sys2Proof Sys2Proof.Claims

/-! ### The bank where no register is declared -/

theorem regWrite_of_lookup_none {s : State} {a : Word16} (v : Word16) (h : lookup s.cfg.regTable a = none) :
    regWrite s a v = s := by
  rcases regWrite_cases s a v with ⟨hsame, -⟩ | ⟨e, hdeclared, -⟩
  · exact hsame
  · rw [h] at hdeclared
    cases hdeclared

theorem regRead_of_lookup_none {s : State} {a : Word16} (h : lookup s.cfg.regTable a = none) :
    regRead s a = (0, s.logEvent (.errReadUnmapped a)) := by
  rw [regRead, h]

/-! ### The decoder's helpers at a control address (R120) and at the end of a word (R117) -/

theorem decoderRead_ctrl {s : State} {a : Word16} (h : classOf a = .ctrl) :
    decoderRead s a = ((regRead s a).1.setWidth 32, (regRead s a).2) := by
  rw [decoderRead, h]

/-- The advance in numbers: addition on 16-bit words is addition mod 2^16. -/
theorem tAddr_add_one (s : State) : s.tAddr + 1 = nextAddr s := by
  apply BitVec.eq_of_toNat_eq
  simp [nextAddr, BitVec.toNat_add]

theorem endWord_eq (s : State) : endWord s = { s with tAddr := nextAddr s, tState := .data0 } := by
  rw [← tAddr_add_one]
  rfl

theorem endWord_setBuf_answerDefault (s : State) (b : Byte) :
    (endWord (s.setBuf { s.tBuf with b1 := b })).answerDefault = afterWrite16 s b := by
  rw [endWord_eq]
  rfl

/-! ### The bytes of a 16-bit word -/

/-- The last byte of a 16-bit write commits to the register bank (R106, R121). -/
theorem exec_wr16D1_ctrl {s : State} (b : Byte) (h : classOf s.tAddr = .ctrl) :
    exec (.wr16D1 b) s =
      .next (endWord (regWrite (s.setBuf { s.tBuf with b1 := b }) s.tAddr (word16Of s.tBuf.b0 b))).answerDefault := by
  have hcommit : exec (.wr16D1 b) s = .next (endWord (decoderCommit (s.setBuf { s.tBuf with b1 := b }) s.tAddr
      ((word16Of s.tBuf.b0 b).setWidth 32))).answerDefault := rfl
  have hword : ((word16Of s.tBuf.b0 b).setWidth 32).setWidth 16 = word16Of s.tBuf.b0 b := by simp
  rw [hcommit, decoderCommit_ctrl _ h, hword]

/-- The first byte of a 16-bit read takes the word from the register bank, and replies its high byte (R107, R120). -/
theorem exec_rd16D0_ctrl {s : State} (b : Byte) (h : classOf s.tAddr = .ctrl) :
    exec (.rd16D0 b) s =
      .next ((((regRead s s.tAddr).2.setBuf { s.tBuf with
        b0 := (bytesOf16 (regRead s s.tAddr).1).1, b1 := (bytesOf16 (regRead s s.tAddr).1).2 }).setPhase .data1).answer
          (bytesOf16 (regRead s s.tAddr).1).1) := by
  have hword : ((regRead s s.tAddr).1.setWidth 32).setWidth 16 = (regRead s s.tAddr).1 := by simp
  simp only [exec, execRd16D0, decoderRead_ctrl h, hword]

/-- The last byte of a 16-bit read replies the latched low byte, and ends the word (R108). -/
theorem exec_rd16D1 (b : Byte) (s : State) :
    exec (.rd16D1 b) s = .next { s with
      tAddr := nextAddr s, tState := .data0, trace := s.trace ++ [.reply s.tBuf.b1] } := by
  have hend : exec (.rd16D1 b) s = .next ((endWord s).answer s.tBuf.b1) := rfl
  rw [hend, endWord_eq]
  rfl

/-! ### R149, a byte at a time -/

/-- The write half of R149: the word's last byte takes its place in `T.buf`, the address advances, and nothing else
happens. -/
theorem exec_wr16D1_of_lookup_none {s : State} (b : Byte) (hctrl : classOf s.tAddr = .ctrl)
    (hnone : lookup s.cfg.regTable s.tAddr = none) : exec (.wr16D1 b) s = .next (afterWrite16 s b) := by
  have hbuf : lookup (s.setBuf { s.tBuf with b1 := b }).cfg.regTable s.tAddr = none := hnone
  rw [exec_wr16D1_ctrl b hctrl, regWrite_of_lookup_none _ hbuf, endWord_setBuf_answerDefault]

/-- The first byte of the read half of R149: the error is logged, and both bytes of the latched word are 0. -/
theorem exec_rd16D0_of_lookup_none {s : State} (b : Byte) (hctrl : classOf s.tAddr = .ctrl)
    (hnone : lookup s.cfg.regTable s.tAddr = none) :
    exec (.rd16D0 b) s = .next { s with
      tBuf := { s.tBuf with b0 := 0, b1 := 0 }
      tState := .data1
      trace := s.trace ++ [.log (.errReadUnmapped s.tAddr), .reply 0] } := by
  have hzero : bytesOf16 0 = (0, 0) := by decide
  have htrace : s.trace ++ [Observation.log (.errReadUnmapped s.tAddr), .reply 0] =
      s.trace ++ [.log (.errReadUnmapped s.tAddr)] ++ [.reply 0] := by simp
  rw [exec_rd16D0_ctrl b hctrl, regRead_of_lookup_none hnone, hzero, htrace]
  rfl

/-! ### The statement -/

/-- Settles O17: the write leaves the bank alone, and the read's second byte replies the 0 that its first byte latched in
`T.buf`, at the address the first byte left in place (R149). -/
theorem unmappedControlAddressReadsZeroIgnoresWrites : Obligations.UnmappedControlAddressReadsZeroIgnoresWrites := by
  intro b b' s hbound hnone
  have hctrl := classOf_ctrl.2 hbound
  refine ⟨exec_wr16D1_of_lookup_none b hctrl hnone, _, exec_rd16D0_of_lookup_none b hctrl hnone, rfl, ?_⟩
  rw [exec_rd16D1]
  rfl

end Sys2Proof.Machine

/-! PROOFS. The last byte of a 32-bit write that starts no safeload (40_protocol_decoder.md R112, R121; 42_safeload.md
R160, R161, R164): the check leaves the stored word's state alone, so the rule is one memory write and the end of the
word. -/

namespace Sys2Proof.Machine

open Sys2Proof Sys2Proof.Claims

/-! ### The committed word (R84) -/

theorem toNat_append_byte {n : Nat} (x : BitVec n) (y : Byte) : (x ++ y).toNat = x.toNat * 256 + y.toNat := by
  rw [BitVec.toNat_append, ← Nat.shiftLeft_add_eq_or_of_lt y.isLt, Nat.shiftLeft_eq]

/-- `T.buf[0] ++ T.buf[1] ++ T.buf[2] ++ b` in numbers: each byte appended counts the ones before it 256 times. -/
theorem word32Of_eq_written32 (s : State) (b : Byte) :
    word32Of s.tBuf.b0 s.tBuf.b1 s.tBuf.b2 b = written32 s b := by
  have hsum : (word32Of s.tBuf.b0 s.tBuf.b1 s.tBuf.b2 b).toNat =
      ((s.tBuf.b0.toNat * 256 + s.tBuf.b1.toNat) * 256 + s.tBuf.b2.toNat) * 256 + b.toNat := by
    simp only [word32Of, toNat_append_byte]
  rw [written32, ← hsum, BitVec.ofNat_toNat, BitVec.setWidth_eq]

/-! ### The safeload check (R160, R164) -/

/-- A word that is stored at no trigger address, or counts zero, starts no copy. -/
theorem safeloadCheck_of_not_trigger {s : State} {a : Word16} {v : Word32}
    (h : (a ≠ s.cfg.trigA ∧ a ≠ s.cfg.trigB) ∨ v.toNat = 0) : safeloadCheck s a v = s := by
  have hno {trig : Word16} (htrig : a ≠ trig ∨ v.toNat = 0) : ¬ (a = trig ∧ 1 ≤ v.toNat) := by
    rintro ⟨haddr, hcount⟩
    rcases htrig with hne | hzero
    · exact hne haddr
    · omega
  rw [safeloadCheck, if_neg (hno (h.imp_left And.left)), if_neg (hno (h.imp_left And.right))]

/-! ### The rule as one memory write -/

/-- The last byte of a 32-bit write commits to memory and then checks for a trigger (R112, R121). -/
theorem exec_wr32D3_mem {s : State} (b : Byte) (h : classOf s.tAddr = .mem) :
    exec (.wr32D3 b) s =
      .next (endWord (safeloadCheck
        (memWrite (s.setBuf { s.tBuf with b3 := b }) s.tAddr.toNat (written32 s b) .current)
        s.tAddr (written32 s b))).answerDefault := by
  have hcommit : exec (.wr32D3 b) s = .next (endWord (decoderCommit (s.setBuf { s.tBuf with b3 := b }) s.tAddr
      (word32Of s.tBuf.b0 s.tBuf.b1 s.tBuf.b2 b))).answerDefault := rfl
  rw [hcommit, word32Of_eq_written32, decoderCommit_mem _ h]

/-- The byte's own place in `T.buf` does not matter to the store. -/
theorem memWrite_setBuf (s : State) (u : Buf) (addr : Nat) (v : Word32) (ovr : Override) :
    memWrite (s.setBuf u) addr v ovr = (s.setBuf u).setMem (memWrite s addr v ovr).mem := by
  rw [memWrite_eq, memWrite_mem_congr (s := s) (t := s.setBuf u) rfl rfl rfl]

theorem endWord_setMem_setBuf_answerDefault (s : State) (b : Byte) (m : Memory) :
    (endWord ((s.setBuf { s.tBuf with b3 := b }).setMem m)).answerDefault = { afterWrite32 s b with mem := m } := by
  rw [endWord_eq]
  rfl

/-- A committed memory write that starts no safeload leaves the memory of `MemWrite` in the current page (R58), whether
or not the address is mapped. -/
theorem exec_wr32D3_of_not_trigger {s : State} (b : Byte) (hmem : classOf s.tAddr = .mem)
    (h : (s.tAddr ≠ s.cfg.trigA ∧ s.tAddr ≠ s.cfg.trigB) ∨ (written32 s b).toNat = 0) :
    exec (.wr32D3 b) s = .next { afterWrite32 s b with mem := (afterStore s b).mem } := by
  have hcheck (m : Memory) : safeloadCheck ((s.setBuf { s.tBuf with b3 := b }).setMem m) s.tAddr (written32 s b) =
      (s.setBuf { s.tBuf with b3 := b }).setMem m := safeloadCheck_of_not_trigger h
  rw [exec_wr32D3_mem b hmem, memWrite_setBuf, hcheck, endWord_setMem_setBuf_answerDefault, afterStore]

/-- The store changes nothing but memory. -/
theorem afterStore_eq (s : State) (b : Byte) : { s with mem := (afterStore s b).mem } = afterStore s b :=
  (memWrite_eq s s.tAddr.toNat (written32 s b) .current).symm

/-! ### The statement -/

/-- Settles O22: the memory left is that of one `MemWrite` at `T.addr`, and the laws of reading after writing give the
word at its own place and at every other. -/
theorem writeStoresWordAndNothingElse : Obligations.WriteStoresWordAndNothingElse := by
  intro b s hbound hwf hmapped hstart
  obtain ⟨q, hq⟩ := Option.ne_none_iff_exists'.1 hmapped
  refine ⟨_, exec_wr32D3_of_not_trigger b (classOf_mem.2 hbound) hstart, ?stored, ?others⟩
  case stored =>
    rw [afterStore_eq]
    exact memRead_memWrite_same _ hwf hq
  case others =>
    intro a o hplace
    rw [afterStore_eq]
    exact memRead_memWrite_other _ (.inr hplace)

end Sys2Proof.Machine

/-! PROOFS. The selection signal (43_host_interfaces.md R180, R181): its level is not state (R28), so asserting it does
nothing, and its release writes the decoder's phase alone. -/

namespace Sys2Proof.Machine

open Sys2Proof Sys2Proof.Claims

/-! ### The rules as their named updates -/

theorem exec_selAssert (s : State) : exec .selAssert s = .next s := rfl

theorem exec_selDeassert (s : State) : exec .selDeassert s = .next (s.setPhase .idle) := rfl

/-! ### The phase update as a record -/

theorem setPhase_eq (s : State) (x : DecoderState) : s.setPhase x = { s with tState := x } := rfl

/-! ### The statements -/

/-- Settles O29: the rule answers the state it is given, in every phase of a transaction (R180). -/
theorem selAssertChangesNothing : Obligations.SelAssertChangesNothing := by
  intro s
  exact exec_selAssert s

/-- Settles O30: the rule is one update of the phase, which keeps every other field (R181). -/
theorem selDeassertReturnsToIdle : Obligations.SelDeassertReturnsToIdle := by
  intro s
  rw [exec_selDeassert, setPhase_eq]

end Sys2Proof.Machine

/-! PROOFS. The decoder (30_encoding.md R89): a context that an instruction is read in fixes every branch of `decode`,
and the only branch with no instruction is a late data phase at a control-space address. -/

namespace Sys2Proof

/-! ### The round trip -/

/-- A chip-address byte is read by its direction bit alone, whatever stale fields `T` has (R89, R100). -/
theorem decode_idle (d : Direction) (x : AddrClass) (b : Byte) :
    decode ⟨.idle, d, x⟩ (.transmit b) = .ok (if b.getLsbD 0 then .caRd b else .caWr b) := rfl

/-- Settles O1: the context column of R89 names one branch of the decoder for each row. -/
theorem decodeOfEncodeGivesInstruction : Obligations.DecodeOfEncodeGivesInstruction := by
  rintro i ⟨phase, d, x⟩ hwf hctx
  cases i with
  | caWr b =>
    obtain rfl : phase = .idle := by simpa [Instr.readIn] using hctx
    have hbit : b.getLsbD 0 = false := by simpa only [Instr.wf, Bool.not_eq_true'] using hwf
    rw [encode, decode_idle, hbit]
    rfl
  | caRd b =>
    obtain rfl : phase = .idle := by simpa [Instr.readIn] using hctx
    have hbit : b.getLsbD 0 = true := hwf
    rw [encode, decode_idle, if_pos hbit]
  | saHi | saLo =>
    simp only [Instr.readIn, beq_iff_eq] at hctx
    subst hctx
    rfl
  | wr16D0 | wr16D1 | rd16D0 | rd16D1 | wr32D0 | wr32D1 | wr32D2 | wr32D3 | rd32D0 | rd32D1 | rd32D2 | rd32D3 =>
    simp only [Instr.readIn, beq_iff_eq] at hctx
    rw [hctx]
    rfl
  | selAssert | selDeassert | reset | bulkRead | regExport => rfl

/-! ### The refused bytes -/

/-- The branches of R100 with no instruction: `Data2` and `Data3` at a control-space address. -/
theorem decodeByte_eq_error_iff (c : Context) (b : Byte) :
    (∃ r, decodeByte c b = .error r) ↔ c.cls = .ctrl ∧ (c.state = .data2 ∨ c.state = .data3) := by
  obtain ⟨phase, d, x⟩ := c
  cases phase with
  | idle | subAddressHigh | subAddressLow | data0 | data1 => simp [decodeByte]
  | data2 => cases x <;> cases d <;> simp [decodeByte, decodeData2]
  | data3 => cases x <;> cases d <;> simp [decodeByte, decodeData3]

theorem decode_eq_error_iff (c : Context) (e : Event) :
    (∃ r, decode c e = .error r) ↔
      (∃ b, e = .transmit b) ∧ c.cls = .ctrl ∧ (c.state = .data2 ∨ c.state = .data3) := by
  cases e with
  | transmit b => simp [decode, decodeByte_eq_error_iff]
  | selAssert | selDeassert | reset | bulkRead | regExport => simp [decode]

/-- An event has no instruction exactly if the decoder answers an error. -/
theorem decode_ne_ok_iff (c : Context) (e : Event) : (∀ i, decode c e ≠ .ok i) ↔ ∃ r, decode c e = .error r := by
  cases decode c e <;> simp

/-- Settles O2: no instruction means an error, and the errors are the two pairs of R89. -/
theorem decodeRefusesOnlyLateControlPhases : Obligations.DecodeRefusesOnlyLateControlPhases := by
  intro c e
  rw [decode_ne_ok_iff, decode_eq_error_iff]

/-- Settles O3: each sample's context names its row, and the byte is the operand (R81, R82). -/
theorem sampleWordsDecode : Obligations.SampleWordsDecode :=
  ⟨rfl, rfl, rfl, rfl, rfl, rfl⟩

end Sys2Proof

/-! PROOFS. Lengths of transactions (30_encoding.md R87): each word adds the bytes of its class's width, so a burst within
one class has one width a word. -/

namespace Sys2Proof.Machine

open Sys2Proof

theorem headerBytes_length (p : Params) (d : Direction) (a : Word16) : (headerBytes p d a).length = 3 := rfl

theorem wordBytes_length (a : Word16) (v : Word32) : (wordBytes a v).length = widthOf (classOf a) / 8 := by
  unfold wordBytes
  cases classOf a with
  | ctrl => simp [widthOf]
  | mem => simp [widthOf, Buf.toList]

/-- The address of a burst's word `j + 1` is that of word `j` of the burst one address further on. -/
theorem addr_succ (a : Word16) (j : Nat) : a + 1 + BitVec.ofNat 16 j = a + BitVec.ofNat 16 (j + 1) := by
  rw [BitVec.add_assoc, BitVec.add_comm 1, BitVec.ofNat_add]
  rfl

/-- R87 for both classes at once. -/
theorem burstBytes_length {x : AddrClass} {words : List Word32} {a : Word16}
    (h : ∀ j < words.length, classOf (a + BitVec.ofNat 16 j) = x) :
    (burstBytes a words).length = widthOf x / 8 * words.length := by
  induction words generalizing a with
  | nil => rfl
  | cons v vs ih =>
    have hfirst : classOf a = x := by simpa using h 0 (by simp)
    have hrest : ∀ j < vs.length, classOf (a + 1 + BitVec.ofNat 16 j) = x := by
      intro j hj
      rw [addr_succ]
      exact h (j + 1) (by simpa using hj)
    rw [burstBytes, List.length_append, wordBytes_length, hfirst, ih hrest, List.length_cons]
    ring

/-- Settles O4: three header bytes, and then two or four for each word (R80, R87). -/
theorem transactionLengthByClass : Obligations.TransactionLengthByClass := by
  intro p d a words
  constructor
  case left =>
    intro hctrl
    rw [List.length_append, headerBytes_length, burstBytes_length fun j hj => classOf_ctrl.2 (hctrl j hj)]
    rfl
  case right =>
    intro hmem
    rw [List.length_append, headerBytes_length, burstBytes_length fun j hj => classOf_mem.2 (hmem j hj)]
    rfl

end Sys2Proof.Machine

/-! PROOFS. The step (00_scope.md R8, R9, R11): which event it takes, when it faults, and that the invariant rules the
faults out. -/

namespace Sys2Proof.Machine

open Sys2Proof

/-! ### One equation for each way a step can go -/

theorem step_of_decode {s : State} {e : Event} {rest : List Event} {i : Instr} (hwf : wellFormed s.cfg = true)
    (hin : s.input = e :: rest) (hdec : decode (contextOf s) e = .ok i) : step s = exec i (s.setInput rest) := by
  rw [step, if_pos hwf]
  simp only [hin, hdec]

theorem step_of_decode_error {s : State} {e : Event} {rest : List Event} {r : DecodeError}
    (hwf : wellFormed s.cfg = true) (hin : s.input = e :: rest) (hdec : decode (contextOf s) e = .error r) :
    step s = .fault (faultOf r) := by
  rw [step, if_pos hwf]
  simp only [hin, hdec]

theorem step_of_input_nil {s : State} (hwf : wellFormed s.cfg = true) (hin : s.input = []) : step s = .next s := by
  rw [step, if_pos hwf]
  simp only [hin]

theorem step_of_illFormed {s : State} (h : wellFormed s.cfg = false) : step s = .refused .illFormedParameters := by
  simp [step, h]

/-- A step faults exactly if the next event has no instruction: no instruction's own meaning faults (R200). -/
theorem step_eq_fault_iff (s : State) :
    (∃ r, step s = .fault r) ↔
      wellFormed s.cfg = true ∧ ∃ e rest, s.input = e :: rest ∧ ∃ r, decode (contextOf s) e = .error r := by
  constructor
  · rintro ⟨r, hfault⟩
    cases hwf : wellFormed s.cfg with
    | false => simp [step_of_illFormed hwf] at hfault
    | true =>
      refine ⟨rfl, ?_⟩
      cases hin : s.input with
      | nil => simp [step_of_input_nil hwf hin] at hfault
      | cons e rest =>
        refine ⟨e, rest, rfl, ?_⟩
        cases hdec : decode (contextOf s) e with
        | error r' => exact ⟨r', rfl⟩
        | ok i =>
          obtain ⟨t, ht⟩ := exec_next i (s.setInput rest)
          simp [step_of_decode hwf hin hdec, ht] at hfault
  · rintro ⟨hwf, e, rest, hin, r, hdec⟩
    exact ⟨_, step_of_decode_error hwf hin hdec⟩

/-! ### The statements -/

/-- Settles O5: the context of R89 is the one the step decodes in. -/
theorem stepRunsDecodedInstruction : Obligations.StepRunsDecodedInstruction := by
  intro s e rest i hwf hin hdec
  exact step_of_decode hwf hin hdec

/-- Settles O6 (log entry 7). -/
theorem stepWithoutEventStays : Obligations.StepWithoutEventStays := by
  intro s hwf hin
  exact step_of_input_nil hwf hin

/-- Settles O7: configuration and the step consult the same check of R11. -/
theorem illFormedParametersRefused : Obligations.IllFormedParametersRefused := by
  constructor
  case left =>
    intro p h
    simp [configure, h]
  case right =>
    intro s h
    exact step_of_illFormed h

/-- Settles O8: a fault is a byte the decoder refuses, in the step's own context. -/
theorem stepFaultsExactlyInLateControlPhases : Obligations.StepFaultsExactlyInLateControlPhases := by
  intro s
  rw [step_eq_fault_iff]
  simp only [decode_eq_error_iff, contextOf, classOf_ctrl]
  constructor
  · rintro ⟨hwf, _, rest, hin, ⟨b, rfl⟩, hctrl, hphase⟩
    exact ⟨hwf, ⟨b, rest, hin⟩, hctrl, hphase⟩
  · rintro ⟨hwf, ⟨b, rest, hin⟩, hctrl, hphase⟩
    exact ⟨hwf, _, rest, hin, ⟨b, rfl⟩, hctrl, hphase⟩

/-- Settles O9: the invariant excludes the refused parameters, and the phases of the refused bytes at a control-space
address (R32 item 1). -/
theorem reachableStatesNeverStop : Obligations.ReachableStatesNeverStop := by
  intro s hinv
  cases hin : s.input with
  | nil => exact ⟨s, step_of_input_nil hinv.wellFormed hin⟩
  | cons e rest =>
    cases hdec : decode (contextOf s) e with
    | ok i => rw [step_of_decode hinv.wellFormed hin hdec]; exact exec_next i _
    | error r =>
      obtain ⟨-, hctrl, hphase⟩ := (decode_eq_error_iff (contextOf s) e).1 ⟨r, hdec⟩
      have hbound := classOf_ctrl.1 hctrl
      have hspace := hinv.phase hphase
      omega

end Sys2Proof.Machine

/-! PROOFS. Fields and bytes in numbers (20_memory.md R62; 30_encoding.md R81 to R85): the statements write bytes as
quotients by 256, the model as fields of a word. -/

namespace Sys2Proof.Machine

open Sys2Proof Sys2Proof.Claims

/-- Byte `k` of a word, as a field and as a quotient. -/
theorem extractLsb'_eq_byteOf {n : Nat} (v : BitVec n) (k : Nat) : v.extractLsb' (8 * k) 8 = byteOf v.toNat k := by
  apply BitVec.eq_of_toNat_eq
  rw [BitVec.extractLsb'_toNat, byteOf, BitVec.toNat_ofNat, Nat.shiftRight_eq_div_pow, Nat.pow_mul]

theorem bytesOf16_eq (v : Word16) : bytesOf16 v = (byteOf v.toNat 1, byteOf v.toNat 0) :=
  Prod.ext (extractLsb'_eq_byteOf v 1) (extractLsb'_eq_byteOf v 0)

theorem bytesOf32_eq (v : Word32) :
    bytesOf32 v = ⟨byteOf v.toNat 3, byteOf v.toNat 2, byteOf v.toNat 1, byteOf v.toNat 0⟩ := by
  rw [← extractLsb'_eq_byteOf v 3, ← extractLsb'_eq_byteOf v 2, ← extractLsb'_eq_byteOf v 1,
    ← extractLsb'_eq_byteOf v 0]
  rfl

theorem bytesOf32_toList (v : Word32) : (bytesOf32 v).toList = wireBytes v := by
  rw [bytesOf32_eq]
  rfl

/-- `T.buf[0] ++ b` in numbers. -/
theorem word16Of_eq_written16 (s : State) (b : Byte) : word16Of s.tBuf.b0 b = written16 s b := by
  have hsum : (word16Of s.tBuf.b0 b).toNat = s.tBuf.b0.toNat * 256 + b.toNat := by
    simp only [word16Of, toNat_append_byte]
  rw [written16, ← hsum, BitVec.ofNat_toNat, BitVec.setWidth_eq]

/-- `T.addr[7:0] <- b` (R82) in numbers. -/
theorem withLowByte_eq_ofNat (a : Word16) (b : Byte) :
    withLowByte a b = BitVec.ofNat 16 (a.toNat / 256 * 256 + b.toNat) := by
  apply BitVec.eq_of_toNat_eq
  simp only [withLowByte, toNat_append_byte, BitVec.extractLsb'_toNat, Nat.shiftRight_eq_div_pow, BitVec.toNat_ofNat]
  omega

/-- `b[7:1]` against `CHIP_ID` (R81) in numbers. -/
theorem chipIdOf_eq_iff (b : Byte) (c : BitVec 7) : chipIdOf b = c ↔ b.toNat / 2 = c.toNat := by
  have hfield : (chipIdOf b).toNat = b.toNat / 2 := by
    have hb := b.isLt
    simp only [chipIdOf, BitVec.extractLsb'_toNat, Nat.shiftRight_eq_div_pow]
    omega
  rw [← hfield, BitVec.toNat_inj]

/-- `v[PAGE_BIT]` as a page (R148, D9), in numbers. -/
theorem pageOfValue_eq (p : Params) (v : Word16) :
    pageOfValue p v = if v.toNat / 2 ^ p.pageBit.val % 2 = 0 then .A else .B := by
  rw [pageOfValue, BitVec.getLsbD, Nat.testBit_eq_decide_div_mod_eq]
  rcases Nat.mod_two_eq_zero_or_one (v.toNat / 2 ^ p.pageBit.val) with hbit | hbit <;> simp [hbit]

end Sys2Proof.Machine

/-! PROOFS. The items of a well-formed parameter set (00_scope.md R11) that the statements rest on. -/

namespace Sys2Proof.Machine

open Sys2Proof

section Items

variable {p : Params} (h : wellFormed p = true)
include h

/-- The items of R11, taken apart once. -/
theorem wellFormed_items :
    tableAddresses p = true ∧ onePageSelect p = true ∧ synthReadOnly p = true ∧ tagsMatchModes p = true ∧
      triggersDistinct p = true ∧ safeloadInside p = true ∧ memInitCanonical p = true := by
  simp only [wellFormed, Bool.and_eq_true] at h
  obtain ⟨⟨⟨⟨⟨⟨⟨-, haddrs⟩, hpage⟩, hsynth⟩, htags⟩, htrig⟩, hinside⟩, hmem⟩ := h
  exact ⟨haddrs, hpage, hsynth, htags, htrig, hinside, hmem⟩

/-- Item 6: the declared addresses are distinct. -/
theorem addrsDistinct_of_wellFormed : addrsDistinct p.regTable = true := by
  obtain ⟨haddrs, -⟩ := wellFormed_items h
  simp only [tableAddresses, Bool.and_eq_true] at haddrs
  exact haddrs.1

/-- Item 6: a declared address is a control-space address. -/
theorem ctrl_of_mem_table {e : RegEntry} (he : e ∈ p.regTable) : classOf e.addr = .ctrl := by
  obtain ⟨haddrs, -⟩ := wellFormed_items h
  simp only [tableAddresses, Bool.and_eq_true, List.all_eq_true, decide_eq_true_eq] at haddrs
  exact classOf_ctrl.2 (haddrs.2 e he)

theorem lookup_of_mem_table {e : RegEntry} (he : e ∈ p.regTable) : lookup p.regTable e.addr = some e :=
  lookup_of_mem (addrsDistinct_of_wellFormed h) he

/-- Item 7: an entry with the tag `PAGE_SELECT` is at `PAGE_REG`, with mode `RWSE`. -/
theorem pageSelect_at_pageReg {e : RegEntry} (he : e ∈ p.regTable) (htag : e.tag = some .pageSelect) :
    e.addr = p.pageReg ∧ e.mode = .rwse := by
  obtain ⟨-, hpage, -⟩ := wellFormed_items h
  simp only [onePageSelect, Bool.and_eq_true, List.all_eq_true, decide_eq_true_eq] at hpage
  exact hpage.2 e he htag

/-- Item 8: an entry that may be written has no synthesized read value. -/
theorem synth_none_of_writable {e : RegEntry} (he : e ∈ p.regTable) (hmode : e.mode ≠ .ro) : e.synth = none := by
  obtain ⟨-, -, hsynth, -⟩ := wellFormed_items h
  simp only [synthReadOnly, List.all_eq_true, decide_eq_true_eq] at hsynth
  cases hval : e.synth with
  | none => rfl
  | some v => exact absurd (hsynth e he (by simp [hval])) hmode

/-- Item 9: an entry has a tag exactly if its mode is `RWSE`. -/
theorem tag_isSome_iff {e : RegEntry} (he : e ∈ p.regTable) : e.tag.isSome = true ↔ e.mode = .rwse := by
  obtain ⟨-, -, -, htags, -⟩ := wellFormed_items h
  simp only [tagsMatchModes, List.all_eq_true, decide_eq_true_eq] at htags
  exact htags e he

/-- Item 10. -/
theorem trigA_ne_trigB : p.trigA ≠ p.trigB := by
  obtain ⟨-, -, -, -, htrig, -⟩ := wellFormed_items h
  simpa only [triggersDistinct, decide_eq_true_eq] using htrig

/-- Item 11 with item 1: a trigger is a memory-space address. -/
theorem trigOf_mem (q : Page) : classOf (trigOf p q) = .mem := by
  have hbounded : windowsBounded p = true := by
    simp only [wellFormed, Bool.and_eq_true] at h
    tauto
  obtain ⟨-, -, -, -, -, hinside, -⟩ := wellFormed_items h
  have hregion : insideRegion p.regions (trigOf p q).toNat = true := by
    simp only [safeloadInside, List.all_cons, Bool.and_eq_true] at hinside
    cases q with
    | A => exact hinside.1
    | B => exact hinside.2.1
  simp only [insideRegion, List.any_eq_true, decide_eq_true_eq] at hregion
  obtain ⟨g, hg, -, hhi⟩ := hregion
  simp only [windowsBounded, List.all_eq_true, decide_eq_true_eq] at hbounded
  exact classOf_mem.2 (lt_of_lt_of_le hhi (hbounded g hg).2)

/-- `MEM_INIT` is canonical and lists only words that exist. -/
theorem memInit_of_wellFormed : Memory.wf p.memInit = true ∧ Memory.placed p.regions p.memInit = true := by
  obtain ⟨-, -, -, -, -, -, hmem⟩ := wellFormed_items h
  simpa only [memInitCanonical, Bool.and_eq_true] using hmem

end Items

/-- A table that counts an entry with the tag `PAGE_SELECT` holds one. -/
theorem exists_pageSelect {table : List RegEntry} (h : pageSelectCount table ≠ 0) :
    ∃ e ∈ table, e.tag = some .pageSelect := by
  induction table with
  | nil => exact absurd rfl h
  | cons f rest ih =>
    by_cases hf : f.tag = some .pageSelect
    · exact ⟨f, by simp, hf⟩
    · obtain ⟨e, he, htag⟩ := ih (by simpa [pageSelectCount, hf] using h)
      exact ⟨e, List.mem_cons_of_mem _ he, htag⟩

/-- Item 7: `PAGE_REG` is declared, and its entry is the page-select entry. -/
theorem lookup_pageReg {p : Params} (h : wellFormed p = true) :
    ∃ e, lookup p.regTable p.pageReg = some e ∧ e ∈ p.regTable ∧ e.addr = p.pageReg ∧ e.tag = some .pageSelect ∧
      e.mode = .rwse := by
  obtain ⟨-, hpage, -⟩ := wellFormed_items h
  simp only [onePageSelect, Bool.and_eq_true, beq_iff_eq] at hpage
  obtain ⟨e, he, htag⟩ := exists_pageSelect (table := p.regTable) (by omega)
  obtain ⟨haddr, hmode⟩ := pageSelect_at_pageReg h he htag
  exact ⟨e, haddr ▸ lookup_of_mem_table h he, he, haddr, htag, hmode⟩

end Sys2Proof.Machine

/-! PROOFS. The header bytes that write `T.dir` and the low address byte (40_protocol_decoder.md R101, R102, R104). -/

namespace Sys2Proof.Machine

open Sys2Proof Sys2Proof.Claims

theorem exec_caWr (b : Byte) (s : State) : exec (.caWr b) s = .next (chipAddress s b .write).answerDefault := rfl

theorem exec_caRd (b : Byte) (s : State) : exec (.caRd b) s = .next (chipAddress s b .read).answerDefault := rfl

theorem exec_saLo (b : Byte) (s : State) :
    exec (.saLo b) s = .next ((s.setAddr (withLowByte s.tAddr b)).setPhase .data0).answerDefault := rfl

/-- The chip-address byte in both directions: the warning depends on the identifier, the direction does not. -/
theorem chipAddress_answerDefault (s : State) (b : Byte) (d : Direction) :
    (chipAddress s b d).answerDefault = { s with
      tDir := d
      tState := .subAddressHigh
      trace := s.trace ++ (if b.toNat / 2 = s.cfg.chipId.toNat then [] else [.log (.warnChipId b)]) ++
        [defaultReply s] } := by
  unfold chipAddress
  by_cases hid : chipIdOf b = s.cfg.chipId
  · rw [if_pos hid, if_pos ((chipIdOf_eq_iff _ _).1 hid), List.append_nil]
    rfl
  · rw [if_neg hid, if_neg fun hnum => hid ((chipIdOf_eq_iff _ _).2 hnum)]
    rfl

/-- Settles O11 (R101). -/
theorem caWrTakesDirectionWrite : Obligations.CaWrTakesDirectionWrite := by
  intro b s
  rw [exec_caWr, chipAddress_answerDefault]

/-- Settles O12 (R102). -/
theorem caRdTakesDirectionRead : Obligations.CaRdTakesDirectionRead := by
  intro b s
  rw [exec_caRd, chipAddress_answerDefault]

/-- Settles O14: the address written is the low byte under the stale high byte (R104). -/
theorem saLoSetsLowAddressByte : Obligations.SaLoSetsLowAddressByte := by
  intro b s
  rw [exec_saLo, setAddr_setPhase_answerDefault, withLowByte_eq_ofNat]

end Sys2Proof.Machine

/-! PROOFS. Committed writes to declared registers (41_register_bank.md R143 to R148), by access mode, and a memory
write that resolves to nothing (20_memory.md R58). -/

namespace Sys2Proof.Machine

open Sys2Proof Sys2Proof.Claims

/-! ### The bank, by access mode -/

section Modes

variable {s : State} {a : Word16} {e : RegEntry} (hdecl : lookup s.cfg.regTable a = some e)
include hdecl

theorem regWrite_of_ro (v : Word16) (hmode : e.mode = .ro) : regWrite s a v = s := by
  simp only [regWrite, hdecl, hmode]

theorem regWrite_of_rw (v : Word16) (hmode : e.mode = .rw) : regWrite s a v = storeReg s a v := by
  simp only [regWrite, hdecl, hmode]

theorem regWrite_of_rwse (v : Word16) (hmode : e.mode = .rwse) :
    regWrite s a v = sideEffect (storeReg s a v) e.tag a v := by
  simp only [regWrite, hdecl, hmode]

end Modes

/-! ### The word's last byte, by access mode -/

section LastByte

variable {s : State} {e : RegEntry} (b : Byte) (hctrl : classOf s.tAddr = .ctrl)
  (hdecl : lookup s.cfg.regTable s.tAddr = some e)
include hctrl hdecl

theorem exec_wr16D1_of_ro (hmode : e.mode = .ro) : exec (.wr16D1 b) s = .next (afterWrite16 s b) := by
  have hkeep := regWrite_of_ro (s := s.setBuf { s.tBuf with b1 := b }) hdecl (word16Of s.tBuf.b0 b) hmode
  rw [exec_wr16D1_ctrl b hctrl, hkeep, endWord_setBuf_answerDefault]

theorem exec_wr16D1_of_rw (hmode : e.mode = .rw) :
    exec (.wr16D1 b) s = .next { afterWrite16 s b with reg := regSet s.reg s.tAddr (written16 s b) } := by
  have hstore := regWrite_of_rw (s := s.setBuf { s.tBuf with b1 := b }) hdecl (written16 s b) hmode
  rw [exec_wr16D1_ctrl b hctrl, word16Of_eq_written16, hstore, endWord_eq]
  rfl

theorem exec_wr16D1_of_pageSelect (hmode : e.mode = .rwse) (htag : e.tag = some .pageSelect) :
    exec (.wr16D1 b) s = .next { afterWrite16 s b with
      reg := regSet s.reg s.tAddr (written16 s b), page := pageOfValue s.cfg (written16 s b) } := by
  have hstore := regWrite_of_rwse (s := s.setBuf { s.tBuf with b1 := b }) hdecl (written16 s b) hmode
  rw [exec_wr16D1_ctrl b hctrl, word16Of_eq_written16, hstore, htag, endWord_eq]
  rfl

theorem exec_wr16D1_of_backupDomain (hmode : e.mode = .rwse) (htag : e.tag = some .backupDomain) :
    exec (.wr16D1 b) s = .next { afterWrite16 s b with
      reg := regSet s.reg s.tAddr (written16 s b)
      trace := s.trace ++ [.log (.hookBackup s.tAddr (written16 s b)), defaultReply s] } := by
  have hstore := regWrite_of_rwse (s := s.setBuf { s.tBuf with b1 := b }) hdecl (written16 s b) hmode
  rw [exec_wr16D1_ctrl b hctrl, word16Of_eq_written16, hstore, htag, endWord_eq, List.append_cons]
  rfl

end LastByte

/-! ### The statements -/

/-- Settles O16 (R144). -/
theorem writeToReadOnlyRegisterIsIgnored : Obligations.WriteToReadOnlyRegisterIsIgnored := by
  intro b s e hbound hdecl hmode
  exact exec_wr16D1_of_ro b (classOf_ctrl.2 hbound) hdecl hmode

/-- Settles O18: the bank left is that of one store (R145). -/
theorem writeToReadWriteRegisterStores : Obligations.WriteToReadWriteRegisterStores := by
  intro b s e hbound hdecl hmode
  exact ⟨_, exec_wr16D1_of_rw b (classOf_ctrl.2 hbound) hdecl hmode, regGet_regSet_same _ _ _,
    fun _ hne => regGet_regSet_other _ _ hne⟩

/-- Settles O19: the store, and the page of the written value's bit `PAGE_BIT` (R148). -/
theorem writeToPageSelectSetsPage : Obligations.WriteToPageSelectSetsPage := by
  intro b s e hbound hdecl hmode htag
  have hexec := exec_wr16D1_of_pageSelect b (classOf_ctrl.2 hbound) hdecl hmode htag
  rw [pageOfValue_eq] at hexec
  exact ⟨_, hexec, regGet_regSet_same _ _ _, fun _ hne => regGet_regSet_other _ _ hne⟩

/-- Settles O20: the store, and the hook's log event before the reply (R147, log entry 11). -/
theorem writeToBackupDomainLogsHook : Obligations.WriteToBackupDomainLogsHook := by
  intro b s e hbound hdecl hmode htag
  exact ⟨_, exec_wr16D1_of_backupDomain b (classOf_ctrl.2 hbound) hdecl hmode htag, regGet_regSet_same _ _ _,
    fun _ hne => regGet_regSet_other _ _ hne⟩

/-- Settles O21: with no place to write and no trigger, the store leaves memory as it was (R58). -/
theorem writeToUnmappedMemoryIsIgnored : Obligations.WriteToUnmappedMemoryIsIgnored := by
  intro b s hbound hnone hA hB
  rw [exec_wr32D3_of_not_trigger b (classOf_mem.2 hbound) (.inl ⟨hA, hB⟩), afterStore, memWrite_none _ hnone]
  rfl

end Sys2Proof.Machine

/-! PROOFS. The first and the last bytes of a read word (40_protocol_decoder.md R107, R108, R113, R116, R120): the first
latches the word, the last replies what was latched. -/

namespace Sys2Proof.Machine

open Sys2Proof Sys2Proof.Claims

/-- R141, R142: a declared register reads as its synthesized value, or else as its stored one. -/
theorem regPeek_eq (s : State) (e : RegEntry) : regPeek s e = e.synth.getD (regGet s.reg e.addr) := by
  rw [regPeek]
  cases e.synth <;> rfl

theorem regRead_of_lookup {s : State} {a : Word16} {e : RegEntry} (h : lookup s.cfg.regTable a = some e) :
    regRead s a = (e.synth.getD (regGet s.reg a), s) := by
  simp only [regRead, h, regPeek_eq, (lookup_some h).2]

/-- R120 at a memory-space address: the current page's word, with the error logged where there is none. -/
theorem decoderRead_memSpace {s : State} {a : Word16} (h : classOf a = .mem) :
    decoderRead s a = (memRead s a.toNat .current,
      if resolve s a.toNat .current = none then s.logEvent (.errReadUnmapped a) else s) := by
  rw [decoderRead, h, memRead]
  cases resolve s a.toNat .current <;> simp

theorem exec_rd16D0_of_lookup {s : State} {e : RegEntry} (b : Byte) (hctrl : classOf s.tAddr = .ctrl)
    (hdecl : lookup s.cfg.regTable s.tAddr = some e) :
    let v := (e.synth.getD (regGet s.reg s.tAddr)).toNat
    exec (.rd16D0 b) s = .next { s with
      tBuf := { s.tBuf with b0 := byteOf v 1, b1 := byteOf v 0 }
      tState := .data1
      trace := s.trace ++ [.reply (byteOf v 1)] } := by
  rw [exec_rd16D0_ctrl b hctrl, regRead_of_lookup hdecl, bytesOf16_eq]
  rfl

theorem exec_rd32D0_mem {s : State} (b : Byte) (h : classOf s.tAddr = .mem) :
    exec (.rd32D0 b) s = .next { s with
      tBuf := bytesOf32 (memRead s s.tAddr.toNat .current)
      tState := .data1
      trace := s.trace ++
        (if resolve s s.tAddr.toNat .current = none then [.log (.errReadUnmapped s.tAddr)] else []) ++
        [.reply (bytesOf32 (memRead s s.tAddr.toNat .current)).b0] } := by
  simp only [exec, execRd32D0, decoderRead_memSpace h]
  by_cases hnone : resolve s s.tAddr.toNat .current = none
  · rw [if_pos hnone, if_pos hnone]
    rfl
  · rw [if_neg hnone, if_neg hnone, List.append_nil]
    rfl

theorem exec_rd32D3 (b : Byte) (s : State) :
    exec (.rd32D3 b) s = .next { s with
      tAddr := nextAddr s, tState := .data0, trace := s.trace ++ [.reply s.tBuf.b3] } := by
  have hend : exec (.rd32D3 b) s = .next ((endWord s).answer s.tBuf.b3) := rfl
  rw [hend, endWord_eq]
  rfl

/-- Settles O25 (R107). -/
theorem rd16D0LatchesRegister : Obligations.Rd16D0LatchesRegister := by
  intro b s e hbound hdecl
  exact exec_rd16D0_of_lookup b (classOf_ctrl.2 hbound) hdecl

/-- Settles O26 (R113). -/
theorem rd32D0LatchesWord : Obligations.Rd32D0LatchesWord := by
  intro b s hbound
  have hexec := exec_rd32D0_mem b (classOf_mem.2 hbound)
  rwa [bytesOf32_eq] at hexec

/-- Settles O28: both rules end the word in one way, and reply the last byte latched (R108, R116). -/
theorem lastReadBytesReplyAndAdvance : Obligations.LastReadBytesReplyAndAdvance := by
  intro b s
  exact ⟨exec_rd16D1 b s, exec_rd32D3 b s⟩

end Sys2Proof.Machine

/-! PROOFS. The two diagnostic results (43_host_interfaces.md R184 to R187): the words of a bulk read in order with their
stream, and the sorted pairs of the register table. -/

namespace Sys2Proof.Machine

open Sys2Proof Sys2Proof.Claims

/-! ### Bulk reads -/

/-- What a bulk read gives its caller (43_host_interfaces.md R184, R185, R187). -/
def bulkResult (s : State) (start : Word16) (count : Nat) (page : Page) : SinkAnswer → Observation
  | .ok =>
    .bulkRead (readBlock s (force page) start.toNat count) (sinkStream (readBlock s (force page) start.toNat count))
  | .err message => .exportFailed message

theorem exec_bulkRead (s : State) (start : Word16) (count : Nat) (page : Page) (sink : SinkAnswer) :
    exec (.bulkRead start count page sink) s = .next (s.emit (bulkResult s start count page sink)) := by
  cases sink <;> rfl

theorem readBlock_eq_map (s : State) (ovr : Override) (addr n : Nat) :
    readBlock s ovr addr n = (List.range n).map fun k => memRead s (addr + k) ovr := by
  induction n generalizing addr with
  | zero => rfl
  | succ n ih =>
    have hshift (k : Nat) : addr + 1 + k = addr + (k + 1) := by omega
    simp [readBlock, ih, List.range_succ_eq_map, hshift, Function.comp_def]

theorem sinkStream_eq_flatMap (ws : List Word32) : sinkStream ws = ws.flatMap wireBytes := by
  induction ws with
  | nil => rfl
  | cons w ws ih => rw [sinkStream, bytesOf32_toList, ih, List.flatMap_cons]

/-- Settles O33: the block's words in order, and their bytes most significant first (R185). -/
theorem bulkReadReturnsPageWords : Obligations.BulkReadReturnsPageWords := by
  intro start count page s
  rw [exec_bulkRead, bulkResult, sinkStream_eq_flatMap, readBlock_eq_map]
  rfl

/-! ### The register table's pairs -/

/-- What the register table's result gives its caller (R186, R187). -/
def tableResult (s : State) : SinkAnswer → Observation
  | .ok => .regExport (exportPairs s s.cfg.regTable)
  | .err message => .exportFailed message

theorem exec_regExport (s : State) (sink : SinkAnswer) :
    exec (.regExport sink) s = .next (s.emit (tableResult s sink)) := by
  cases sink <;> rfl

theorem mem_insertPair {x y : Word16 × Word16} {l : List (Word16 × Word16)} :
    y ∈ insertPair x l ↔ y = x ∨ y ∈ l := by
  induction l with
  | nil => simp [insertPair]
  | cons z rest ih =>
    unfold insertPair
    split
    · simp
    · simp only [List.mem_cons, ih]
      tauto

/-- Ascending addresses, the order of R186. -/
def Ascending (l : List (Word16 × Word16)) : Prop := l.Pairwise fun x y => x.1.toNat < y.1.toNat

/-- An insertion at an address that is not listed keeps the order strict. -/
theorem insertPair_ascending {x : Word16 × Word16} {l : List (Word16 × Word16)} (hl : Ascending l)
    (hnew : ∀ y ∈ l, y.1 ≠ x.1) : Ascending (insertPair x l) := by
  induction l with
  | nil => exact List.pairwise_singleton _ x
  | cons z rest ih =>
    obtain ⟨hz, hrest⟩ := List.pairwise_cons.1 hl
    have hzx : z.1.toNat ≠ x.1.toNat := fun h => hnew z (by simp) (BitVec.eq_of_toNat_eq h)
    unfold insertPair
    split
    · next hle =>
      refine List.pairwise_cons.2 ⟨fun y hy => ?_, hl⟩
      rcases List.mem_cons.1 hy with rfl | hy
      · omega
      · have := hz y hy
        omega
    · next hlt =>
      refine List.pairwise_cons.2 ⟨fun y hy => ?_, ih hrest fun y hy => hnew y (List.mem_cons_of_mem _ hy)⟩
      rcases mem_insertPair.1 hy with rfl | hy
      · omega
      · exact hz y hy

theorem mem_exportPairs {s : State} {table : List RegEntry} {y : Word16 × Word16} :
    y ∈ exportPairs s table ↔ ∃ e ∈ table, y = (e.addr, regPeek s e) := by
  induction table with
  | nil => simp [exportPairs]
  | cons e rest ih => simp [exportPairs, mem_insertPair, ih]

theorem exportPairs_ascending (s : State) {table : List RegEntry} (hd : addrsDistinct table = true) :
    Ascending (exportPairs s table) := by
  induction table with
  | nil => exact List.Pairwise.nil
  | cons e rest ih =>
    simp only [addrsDistinct, Bool.and_eq_true, List.all_eq_true, decide_eq_true_eq] at hd
    refine insertPair_ascending (ih hd.2) fun y hy => ?_
    obtain ⟨f, hf, rfl⟩ := mem_exportPairs.1 hy
    exact hd.1 f hf

/-- Settles O34: the insertion sort keeps the pairs, and distinct addresses make its order strict (R186). -/
theorem regExportListsDeclaredRegisters : Obligations.RegExportListsDeclaredRegisters := by
  intro s hwf
  have horder := exportPairs_ascending s (addrsDistinct_of_wellFormed hwf)
  refine ⟨exportPairs s s.cfg.regTable, exec_regExport s .ok, horder, ?members⟩
  case members =>
    intro a v
    rw [mem_exportPairs]
    constructor
    · rintro ⟨e, he, hpair⟩
      obtain ⟨rfl, rfl⟩ := Prod.mk.inj hpair
      exact ⟨e, he, rfl, regPeek_eq s e⟩
    · rintro ⟨e, he, rfl, rfl⟩
      exact ⟨e, he, by rw [regPeek_eq]⟩

/-- Settles O35: the sink's failure is the whole result (R187). -/
theorem failedExportChangesNothing : Obligations.FailedExportChangesNothing := by
  intro start count page message s
  exact ⟨exec_bulkRead s start count page (.err message), exec_regExport s (.err message)⟩

end Sys2Proof.Machine

/-! PROOFS. Reset and construction (70_reset_and_hazards.md R220 to R224; 10_state.md R24, R31): the bank, the page and
the invariant they leave. -/

namespace Sys2Proof.Machine

open Sys2Proof Sys2Proof.Claims

/-! ### The page -/

theorem pageAtReset_of_lookup {p : Params} {e : RegEntry} (h : lookup p.regTable p.pageReg = some e) :
    pageAtReset p = pageOfValue p e.reset := by
  simp only [pageAtReset, h]

/-! ### The bank -/

theorem nodup_of_addrsDistinct {table : List RegEntry} (h : addrsDistinct table = true) :
    (table.map RegEntry.addr).Nodup := by
  induction table with
  | nil => exact List.nodup_nil
  | cons e rest ih =>
    simp only [addrsDistinct, Bool.and_eq_true, List.all_eq_true, decide_eq_true_eq] at h
    refine List.nodup_cons.2 ⟨fun hmem => ?_, ih h.2⟩
    obtain ⟨f, hf, haddr⟩ := List.mem_map.1 hmem
    exact h.1 f hf haddr

/-- A bank is its list of distinct addresses and the value of each. -/
theorem bank_ext {g g' : List (Word16 × Word16)} (haddrs : g.map Prod.fst = g'.map Prod.fst)
    (hnodup : (g.map Prod.fst).Nodup) (hval : ∀ a ∈ g.map Prod.fst, regGet g a = regGet g' a) : g = g' := by
  induction g generalizing g' with
  | nil => exact (List.map_eq_nil_iff.1 haddrs.symm).symm
  | cons c rest ih =>
    cases g' with
    | nil => cases haddrs
    | cons c' rest' =>
      obtain ⟨a, v⟩ := c
      obtain ⟨a', v'⟩ := c'
      obtain ⟨rfl, hrest⟩ : a = a' ∧ rest.map Prod.fst = rest'.map Prod.fst := by simpa using haddrs
      obtain ⟨hfresh, hnodup'⟩ := List.nodup_cons.1 hnodup
      obtain rfl : v = v' := by simpa [regGet] using hval a (by simp)
      rw [ih hrest hnodup']
      intro k hk
      have hne : a ≠ k := fun h => hfresh (h ▸ hk)
      simpa [regGet, hne] using hval k (List.mem_cons_of_mem _ hk)

theorem regGet_resetValues_of_mem {p : Params} (h : wellFormed p = true) {e : RegEntry} (he : e ∈ p.regTable) :
    regGet (resetValues p.regTable) e.addr = e.reset :=
  regGet_resetValues (lookup_of_mem_table h he)

/-- R150 and R31 give the declared registers the same values. -/
theorem resetRegs_eq_resetValues {p : Params} (h : wellFormed p = true) {reg : List (Word16 × Word16)}
    (hdecl : reg.map Prod.fst = p.regTable.map RegEntry.addr) : resetRegs reg p.regTable = resetValues p.regTable := by
  have hdist := addrsDistinct_of_wellFormed h
  have haddrs : (resetRegs reg p.regTable).map Prod.fst = p.regTable.map RegEntry.addr := by
    rw [resetRegs_addrs _ _ fun e he => hdecl ▸ List.mem_map_of_mem he, hdecl]
  apply bank_ext
  case haddrs => rw [haddrs, resetValues_addrs]
  case hnodup => rw [haddrs]; exact nodup_of_addrsDistinct hdist
  case hval =>
    intro a ha
    rw [haddrs] at ha
    obtain ⟨e, he, rfl⟩ := List.mem_map.1 ha
    rw [regGet_resetRegs _ hdist he, regGet_resetValues_of_mem h he]

/-! ### The reset event -/

theorem exec_reset (s : State) : exec .reset s = .next ((pageReset (regBankReset s)).setPhase .idle) := rfl

/-- The reset event as a record (R221 to R224). -/
theorem exec_reset_eq (s : State) :
    exec .reset s = .next { s with
      reg := resetRegs s.reg s.cfg.regTable
      page := match s.cfg.pageOnReset with
        | .fromRegisterReset => pageAtReset s.cfg
        | .unchanged => s.page
      tState := .idle } := by
  have hcfg : (regBankReset s).cfg = s.cfg := rfl
  rw [exec_reset, pageReset, hcfg]
  cases s.cfg.pageOnReset <;> rfl

/-- Settles O31: the bank reset gives each declared register its reset value, and reaches no other (R150). -/
theorem resetRestoresRegistersAndKeepsMemory : Obligations.ResetRestoresRegistersAndKeepsMemory := by
  intro s hwf
  obtain ⟨pageEntry, hpage, -⟩ := lookup_pageReg hwf
  have hexec := exec_reset_eq s
  rw [pageAtReset_of_lookup hpage, pageOfValue_eq] at hexec
  exact ⟨_, pageEntry, hpage, hexec, fun e he => regGet_resetRegs _ (addrsDistinct_of_wellFormed hwf) he,
    fun a hundecl => regGet_resetRegs_other _ _ a hundecl⟩

/-- Settles O32 (R24, R150, D15). -/
theorem resetLeavesConstructionRegisters : Obligations.ResetLeavesConstructionRegisters := by
  intro s hwf hdecl
  exact ⟨_, exec_reset_eq s, resetRegs_eq_resetValues hwf hdecl, rfl⟩

/-! ### Construction -/

/-- Settles O37 (R220). -/
theorem constructionStateByParameters : Obligations.ConstructionStateByParameters := by
  intro p hwf
  obtain ⟨pageEntry, hpage, -⟩ := lookup_pageReg hwf
  have hstate : configure p = .next (State.construct p) := by rw [configure, if_pos hwf]
  refine ⟨State.construct p, pageEntry, hstate, hpage, rfl, rfl, rfl, fun e he => regGet_resetValues_of_mem hwf he, ?page⟩
  case page => rw [← pageOfValue_eq, ← pageAtReset_of_lookup hpage]; rfl

/-- Settles O39: `Idle` is no late phase, the bank is the table's, and `MEM_INIT` is canonical (R31, R32). -/
theorem constructionHasStateInvariant : Obligations.ConstructionHasStateInvariant := by
  intro p hwf
  exact {
    wellFormed := hwf
    phase := by rintro (h | h) <;> cases h
    regs := resetValues_addrs p.regTable
    readOnly := fun e he _ => regGet_resetValues_of_mem hwf he
    memory := memInit_of_wellFormed hwf }

/-- Settles O40: the reset state is the construction state of `EX`, whose parameters are well formed. -/
theorem resetStateHasStateInvariant : Obligations.ResetStateHasStateInvariant :=
  constructionHasStateInvariant Config.params (by decide)

end Sys2Proof.Machine

/-! PROOFS. The safeload engine against its loop (42_safeload.md R160 to R172): iterations past `CTRL_BOUNDARY` write
nothing, so the bounded copy is the whole loop; and a word that no iteration writes, read or not, is the word before. -/

namespace Sys2Proof.Machine

open Sys2Proof Sys2Proof.Claims

/-! ### Resolution, as the copy uses it -/

theorem resolve_of_boundary_le (s : State) {addr : Nat} (ovr : Override) (h : ctrlBoundary ≤ addr) :
    resolve s addr ovr = none := by
  rw [resolve, if_pos h]

/-- A place's region and index name one address. -/
theorem addr_eq_of_resolve {s : State} {a a' : Nat} {o o' : Override} {q : Place} (h : resolve s a o = some q)
    (h' : resolve s a' o' = some q) : a = a' := by
  obtain ⟨-, -, g, hg, hlo, -, hidx⟩ := resolve_some h
  obtain ⟨-, -, g', hg', hlo', -, hidx'⟩ := resolve_some h'
  obtain rfl : g = g' := by simpa using hg.symm.trans hg'
  omega

/-- Different addresses share no place, whatever pages they are read in. -/
theorem resolve_apart {s : State} {a a' : Nat} (o o' : Override) (hne : a ≠ a') :
    resolve s a o = none ∨ resolve s a o ≠ resolve s a' o' := by
  cases ha : resolve s a o with
  | none => exact .inl rfl
  | some q => exact .inr fun h => hne (addr_eq_of_resolve ha h.symm)

/-! ### The loop and its iterations -/

theorem pointerWord_eq_ptrValue (s : State) (p : Page) : pointerWord s p = ptrValue s p := by
  cases p with
  | A => simp [pointerWord, ptrValue, ptrOf, force]
  | B => simp [pointerWord, ptrValue, ptrOf, force]

/-- The last iteration, after the ones before it. -/
theorem copyWords_succ (s : State) (ovr : Override) (src dst n : Nat) :
    copyWords s ovr src dst (n + 1) = copyWord (copyWords s ovr src dst n) ovr (src + n) (dst + n) := by
  rw [copyWords_add]
  rfl

/-- The loop of R162 runs the machine's iterations, all of them. -/
theorem copyLoop_eq_copyWords (s : State) (p : Page) (n : Nat) :
    copyLoop s p n = copyWords s (force p) (stageOf s.cfg p).toNat (pointerWord s p) n := by
  unfold copyLoop
  induction n with
  | zero => rfl
  | succ n ih => rw [List.range_succ, List.foldl_append, ih, copyWords_succ]; rfl

/-! ### R170: the iterations that cannot change state -/

theorem copyWords_of_boundary_le (s : State) (ovr : Override) (src : Nat) {dst : Nat} (n : Nat)
    (h : ctrlBoundary ≤ dst) : copyWords s ovr src dst n = s := by
  induction n with
  | zero => rfl
  | succ n ih => rw [copyWords_succ, ih, copyWord, memWrite_none _ (resolve_of_boundary_le s ovr (by omega))]

theorem copyWords_copyCount (s : State) (ovr : Override) (src dst n : Nat) :
    copyWords s ovr src dst (copyCount dst n) = copyWords s ovr src dst n := by
  unfold copyCount
  rcases Nat.le_total n (ctrlBoundary - dst) with hall | hsome
  · rw [min_eq_left hall]
  · obtain ⟨k, rfl⟩ := Nat.exists_eq_add_of_le hsome
    have hend : ctrlBoundary ≤ dst + (ctrlBoundary - dst) := by omega
    rw [min_eq_right hsome, copyWords_add, copyWords_of_boundary_le _ _ _ _ hend]

theorem safeloadCopy_eq_copyLoop (s : State) (p : Page) (n : Nat) : safeloadCopy s p n = copyLoop s p n := by
  rw [safeloadCopy, copyWords_copyCount, copyLoop_eq_copyWords, pointerWord_eq_ptrValue]

/-- A count of at least 1 stored at `TRIG_p` runs the whole loop in the page `p` (R160). -/
theorem safeloadCheck_of_trigger {s : State} {a : Word16} {v : Word32} {p : Page} (htrig : s.cfg.trigA ≠ s.cfg.trigB)
    (haddr : a = trigOf s.cfg p) (hcount : 1 ≤ v.toNat) : safeloadCheck s a v = copyLoop s p v.toNat := by
  rw [← safeloadCopy_eq_copyLoop, safeloadCheck]
  cases p with
  | A => rw [if_pos ⟨haddr, hcount⟩]
  | B => rw [if_neg fun hA => htrig (hA.1.symm.trans haddr), if_pos ⟨haddr, hcount⟩]

/-! ### The rule -/

@[simp] theorem afterStore_cfg (s : State) (b : Byte) : (afterStore s b).cfg = s.cfg := by simp [afterStore]

@[simp] theorem afterStore_page (s : State) (b : Byte) : (afterStore s b).page = s.page := by simp [afterStore]

/-- The last byte of a 32-bit write in full: the store, and then the check (R112, R121). -/
theorem exec_wr32D3_eq {s : State} (b : Byte) (h : classOf s.tAddr = .mem) :
    exec (.wr32D3 b) s = .next { afterWrite32 s b with
      mem := (safeloadCheck (afterStore s b) s.tAddr (written32 s b)).mem } := by
  have hmem := safeloadCheck_mem_congr (s := afterStore s b)
    (t := (s.setBuf { s.tBuf with b3 := b }).setMem (afterStore s b).mem) (by simp) (by simp) rfl s.tAddr (written32 s b)
  rw [exec_wr32D3_mem b h, memWrite_setBuf, safeloadCheck_eq, ← hmem]
  exact congrArg Host.Outcome.next (endWord_setMem_setBuf_answerDefault s b _)

/-- Settles O23: the machine's iterations are the loop's up to `CTRL_BOUNDARY`, and the rest write nothing (R170). -/
theorem triggerRunsTheWholeCopyLoop : Obligations.TriggerRunsTheWholeCopyLoop := by
  intro b s p hwf haddr hcount
  have hmem : classOf s.tAddr = .mem := haddr ▸ trigOf_mem hwf p
  have hcheck := safeloadCheck_of_trigger (s := afterStore s b) (p := p) (by simpa using trigA_ne_trigB hwf)
    (by simpa using haddr) hcount
  rw [exec_wr32D3_eq b hmem, hcheck]

/-! ### What the copy leaves and what it moves -/

theorem memWrite_wf {s : State} (addr : Nat) (v : Word32) (ovr : Override) (h : Memory.wf s.mem = true) :
    Memory.wf (memWrite s addr v ovr).mem = true := by
  cases hr : resolve s addr ovr with
  | none => rwa [memWrite_none v hr]
  | some q => rw [memWrite_some v hr]; exact cellWrite_wf _ _ _ h

theorem copyWords_wf {s : State} (ovr : Override) (src dst n : Nat) (h : Memory.wf s.mem = true) :
    Memory.wf (copyWords s ovr src dst n).mem = true := by
  induction n with
  | zero => exact h
  | succ n ih => rw [copyWords_succ]; exact memWrite_wf _ _ _ ih

theorem resolve_copyWords (s : State) (ovr : Override) (src dst n addr : Nat) (o : Override) :
    resolve (copyWords s ovr src dst n) addr o = resolve s addr o :=
  resolve_congr (by simp) (by simp) addr o

/-- A word at none of the destination's places stays. -/
theorem memRead_copyWords_other {s : State} {ovr o : Override} {a : Nat} (src dst n : Nat)
    (h : ∀ i < n, resolve s a o = none ∨ resolve s a o ≠ resolve s (dst + i) ovr) :
    memRead (copyWords s ovr src dst n) a o = memRead s a o := by
  induction n with
  | zero => rfl
  | succ n ih =>
    have hlast := h n (by omega)
    rw [← resolve_copyWords s ovr src dst n a o, ← resolve_copyWords s ovr src dst n (dst + n) ovr] at hlast
    rw [copyWords_succ, copyWord, memRead_memWrite_other _ hlast, ih fun i hi => h i (by omega)]

/-- With disjoint ranges no iteration writes a word that another reads or has written, so each mapped destination word
gets its source word. -/
theorem memRead_copyWords_moved {s : State} {ovr : Override} {src dst n i : Nat} (hwf : Memory.wf s.mem = true)
    (hdisj : src + n ≤ dst ∨ dst + n ≤ src) (hi : i < n) (hmapped : resolve s (dst + i) ovr ≠ none) :
    memRead (copyWords s ovr src dst n) (dst + i) ovr = memRead s (src + i) ovr := by
  induction n with
  | zero => omega
  | succ n ih =>
    rw [copyWords_succ, copyWord]
    rcases Nat.lt_succ_iff_lt_or_eq.1 hi with hlt | rfl
    · have hapart := resolve_apart (s := copyWords s ovr src dst n) ovr ovr (show dst + i ≠ dst + n by omega)
      rw [memRead_memWrite_other _ hapart, ih (by omega) hlt]
    · obtain ⟨q, hq⟩ := Option.ne_none_iff_exists'.1 hmapped
      have hq' : resolve (copyWords s ovr src dst i) (dst + i) ovr = some q := by rw [resolve_copyWords, hq]
      rw [memRead_memWrite_same _ (copyWords_wf _ _ _ _ hwf) hq']
      exact memRead_copyWords_other _ _ _ fun j hj => resolve_apart _ _ (by omega)

/-- The copy loop, read at a place it does not write. -/
theorem memRead_copyLoop_other {s : State} {p : Page} {a : Nat} {o : Override} (n : Nat)
    (h : ∀ i < n, resolve s a o = none ∨ resolve s a o ≠ resolve s (pointerWord s p + i) (force p)) :
    memRead (copyLoop s p n) a o = memRead s a o := by
  rw [copyLoop_eq_copyWords]
  exact memRead_copyWords_other _ _ _ h

@[simp] theorem copyLoop_cfg (s : State) (p : Page) (n : Nat) : (copyLoop s p n).cfg = s.cfg := by
  simp [copyLoop_eq_copyWords]

@[simp] theorem copyLoop_page (s : State) (p : Page) (n : Nat) : (copyLoop s p n).page = s.page := by
  simp [copyLoop_eq_copyWords]

/-- Settles O24: the loop's memory, read in the state before it, whose parameters and page are the same. -/
theorem disjointCopyMovesExactlyNWords : Obligations.DisjointCopyMovesExactlyNWords := by
  intro b s p hwf hmem haddr hcount n d src hdisj
  have hread := memRead_congr (s := copyLoop (afterStore s b) p n)
    (t := { s with mem := (copyLoop (afterStore s b) p n).mem }) (by simp) (by simp) rfl
  have hplace (a : Nat) (o : Override) : resolve (afterStore s b) a o = resolve s a o :=
    resolve_congr (by simp) (by simp) a o
  refine ⟨_, triggerRunsTheWholeCopyLoop b s p hwf haddr hcount, ?moved, ?others⟩
  case moved =>
    intro i hi hmapped
    rw [hread, copyLoop_eq_copyWords, afterStore_cfg]
    exact memRead_copyWords_moved (memWrite_wf _ _ _ hmem) hdisj hi (by rwa [hplace])
  case others =>
    intro a o hother
    rw [hread]
    refine memRead_copyLoop_other n fun i hi => ?_
    rw [hplace, hplace]
    exact or_iff_not_imp_left.2 (hother i hi)

end Sys2Proof.Machine

/-! PROOFS. What an instruction does to the transaction and to the observations, said once for all rows of the opcode
table: the parameters and the events stay, the phase and the address go on as the row says, and the trace grows by at most
one log event and one result. -/

namespace Sys2Proof.Machine

open Sys2Proof Sys2Proof.Claims

/-! ### The phase and the address after an instruction -/

/-- `T.state` after an instruction that was read in phase `x` (40_protocol_decoder.md R101 to R116; R180, R181, R221). -/
def phaseAfter (x : DecoderState) : Instr → DecoderState
  | .caWr _ | .caRd _ => .subAddressHigh
  | .saHi _ => .subAddressLow
  | .saLo _ => .data0
  | .wr16D0 _ | .rd16D0 _ | .wr32D0 _ | .rd32D0 _ => .data1
  | .wr32D1 _ | .rd32D1 _ => .data2
  | .wr32D2 _ | .rd32D2 _ => .data3
  | .wr16D1 _ | .rd16D1 _ | .wr32D3 _ | .rd32D3 _ => .data0
  | .selDeassert | .reset => .idle
  | .selAssert | .bulkRead _ _ _ _ | .regExport _ => x

/-- `T.addr` after an instruction: the header's bytes and the advance after a word's last byte (R103, R104, R117). -/
def addrAfter (a : Word16) : Instr → Word16
  | .saHi b => withHighByte a b
  | .saLo b => withLowByte a b
  | .wr16D1 _ | .rd16D1 _ | .wr32D3 _ | .rd32D3 _ => a + 1
  | _ => a

section Exec

variable {i : Instr} {s t : State} (h : exec i s = .next t)
include h

/-- The parameters and the events are no instruction's to change, and the phase and the address go on by its row. -/
theorem exec_frame :
    t.cfg = s.cfg ∧ t.input = s.input ∧ t.tState = phaseAfter s.tState i ∧ t.tAddr = addrAfter s.tAddr i := by
  cases i with
  | caWr b => rw [exec_caWr, chipAddress_answerDefault] at h; cases h; exact ⟨rfl, rfl, rfl, rfl⟩
  | caRd b => rw [exec_caRd, chipAddress_answerDefault] at h; cases h; exact ⟨rfl, rfl, rfl, rfl⟩
  | wr16D1 b | wr32D3 b => cases h; simp [endWord, advance, phaseAfter, addrAfter]
  | rd16D0 b | rd32D0 b => cases h; simp [phaseAfter, addrAfter]
  | reset => rw [exec_reset_eq] at h; cases h; exact ⟨rfl, rfl, rfl, rfl⟩
  | bulkRead start count page sink => rw [exec_bulkRead] at h; cases h; exact ⟨rfl, rfl, rfl, rfl⟩
  | regExport sink => rw [exec_regExport] at h; cases h; exact ⟨rfl, rfl, rfl, rfl⟩
  | _ => cases h; exact ⟨rfl, rfl, rfl, rfl⟩

theorem exec_cfg : t.cfg = s.cfg := (exec_frame h).1

/-- The registers, memory and the page change only by the last byte of a written word, or by a reset (R29). -/
theorem exec_storage :
    (t.reg = s.reg ∧ t.mem = s.mem ∧ t.page = s.page) ∨ (∃ b, i = .wr16D1 b) ∨ (∃ b, i = .wr32D3 b) ∨ i = .reset := by
  cases i with
  | wr16D1 b => exact .inr (.inl ⟨b, rfl⟩)
  | wr32D3 b => exact .inr (.inr (.inl ⟨b, rfl⟩))
  | reset => exact .inr (.inr (.inr rfl))
  | caWr b => rw [exec_caWr, chipAddress_answerDefault] at h; cases h; exact .inl ⟨rfl, rfl, rfl⟩
  | caRd b => rw [exec_caRd, chipAddress_answerDefault] at h; cases h; exact .inl ⟨rfl, rfl, rfl⟩
  | rd16D0 b | rd32D0 b => cases h; left; simp
  | bulkRead start count page sink => rw [exec_bulkRead] at h; cases h; exact .inl ⟨rfl, rfl, rfl⟩
  | regExport sink => rw [exec_regExport] at h; cases h; exact .inl ⟨rfl, rfl, rfl⟩
  | _ => cases h; exact .inl ⟨rfl, rfl, rfl⟩

end Exec

/-! ### The observations of an instruction -/

/-- The trace grows by at most one log event and then at most one reply or result (R30, D16; log entry 11). -/
def ObservesOnce (s t : State) : Prop :=
  ∃ (logs : List LogEvent) (results : List Observation), t.trace = s.trace ++ logs.map .log ++ results ∧
    logs.length ≤ 1 ∧ results.length ≤ 1 ∧ ∀ e, .log e ∉ results

theorem observesOnce_of_trace_eq {s t : State} (h : t.trace = s.trace) : ObservesOnce s t :=
  ⟨[], [], by simp [h], by simp, by simp, by simp⟩

theorem observesOnce_of_result {s t : State} {o : Observation} (h : t.trace = s.trace ++ [o]) (ho : ∀ e, o ≠ .log e) :
    ObservesOnce s t :=
  ⟨[], [o], by simp [h], by simp, by simp, fun e he => ho e (List.mem_singleton.1 he).symm⟩

/-- What `logEvent` can have added to the trace by the time a rule replies. -/
def LogsOnce (s t : State) : Prop := t.trace = s.trace ∨ ∃ e, t.trace = s.trace ++ [.log e]

theorem observesOnce_of_reply {s u t : State} {b : Byte} (hlog : LogsOnce s u) (h : t.trace = u.trace ++ [.reply b]) :
    ObservesOnce s t := by
  rcases hlog with hsame | ⟨e, hsome⟩
  · exact observesOnce_of_result (by rw [h, hsame]) (by simp)
  · exact ⟨[e], [.reply b], by simp [h, hsome], by simp, by simp, by simp⟩

theorem logsOnce_chipAddress (s : State) (b : Byte) (d : Direction) : LogsOnce s (chipAddress s b d) := by
  unfold chipAddress
  split
  · exact .inl rfl
  · exact .inr ⟨_, rfl⟩

theorem logsOnce_regWrite (s : State) (a v : Word16) : LogsOnce s (regWrite s a v) := by
  rcases regWrite_cases s a v with ⟨hw, -⟩ | ⟨e, -, -, ⟨hw, -⟩ | ⟨hw, -⟩ | ⟨hw, -⟩⟩
  · exact .inl (by rw [hw])
  · exact .inl (by rw [hw]; rfl)
  · exact .inl (by rw [hw]; rfl)
  · exact .inr ⟨_, by rw [hw]; rfl⟩

theorem logsOnce_decoderCommit (s : State) (a : Word16) (v : Word32) : LogsOnce s (decoderCommit s a v) := by
  cases hclass : classOf a with
  | ctrl => rw [decoderCommit_ctrl v hclass]; exact logsOnce_regWrite s a _
  | mem => rw [decoderCommit_mem v hclass]; exact .inl (by simp)

/-- A commit made after the byte is put in its place in `T.buf` logs as one made before. -/
theorem logsOnce_of_setBuf {s t : State} {u : Buf} (h : LogsOnce (s.setBuf u) t) : LogsOnce s t := h

theorem logsOnce_decoderRead (s : State) (a : Word16) : LogsOnce s (decoderRead s a).2 := by
  rcases decoderRead_state s a with hr | hr
  · exact .inl (by rw [hr])
  · exact .inr ⟨_, by rw [hr]; rfl⟩

theorem exec_observesOnce {i : Instr} {s t : State} (h : exec i s = .next t) : ObservesOnce s t := by
  cases i with
  | caWr b => cases h; exact observesOnce_of_reply (logsOnce_chipAddress s b .write) (State.answerDefault_trace _)
  | caRd b => cases h; exact observesOnce_of_reply (logsOnce_chipAddress s b .read) (State.answerDefault_trace _)
  | wr16D1 b | wr32D3 b =>
    cases h
    exact observesOnce_of_reply (logsOnce_of_setBuf (logsOnce_decoderCommit _ s.tAddr _)) rfl
  | rd16D0 b | rd32D0 b => cases h; exact observesOnce_of_reply (logsOnce_decoderRead s s.tAddr) rfl
  | selAssert | selDeassert => cases h; exact observesOnce_of_trace_eq rfl
  | reset => rw [exec_reset_eq] at h; cases h; exact observesOnce_of_trace_eq rfl
  | bulkRead start count page sink =>
    rw [exec_bulkRead] at h
    cases h
    exact observesOnce_of_result rfl (by cases sink <;> simp [bulkResult])
  | regExport sink =>
    rw [exec_regExport] at h
    cases h
    exact observesOnce_of_result rfl (by cases sink <;> simp [tableResult])
  | _ => cases h; exact observesOnce_of_result rfl (by simp)

/-- No step changes the parameters (log entry 1). -/
theorem step_cfg {s t : State} (h : step s = .next t) : t.cfg = s.cfg := by
  obtain ⟨-, ⟨-, rfl⟩ | ⟨e, rest, i, -, -, hexec⟩⟩ := step_cases h
  · rfl
  · exact exec_cfg (s := s.setInput rest) hexec

/-- Settles O45: what holds of every instruction holds of the step, which takes the first event and runs one. -/
theorem stepObservesAtMostOneLogAndOneResult : Obligations.StepObservesAtMostOneLogAndOneResult := by
  intro s t hstep
  obtain ⟨-, ⟨hin, rfl⟩ | ⟨e, rest, i, hin, -, hexec⟩⟩ := step_cases hstep
  · exact ⟨rfl, by simp [hin], observesOnce_of_trace_eq rfl⟩
  · obtain ⟨hcfg, hinput, -⟩ := exec_frame hexec
    have hobs : ObservesOnce s t := exec_observesOnce (s := s.setInput rest) hexec
    exact ⟨hcfg, by rw [hinput, hin]; rfl, hobs⟩

end Sys2Proof.Machine

/-! PROOFS. The decoder's transition function (40_protocol_decoder.md R119), by the context alone. -/

namespace Sys2Proof.Machine

open Sys2Proof Sys2Proof.Claims

/-- R119's next phase of a byte. -/
def byteSuccessor (c : Context) : DecoderState :=
  match c.state with
  | .idle => .subAddressHigh
  | .subAddressHigh => .subAddressLow
  | .subAddressLow => .data0
  | .data0 => .data1
  | .data1 => match c.cls with
    | .ctrl => .data0
    | .mem => .data2
  | .data2 => .data3
  | .data3 => .data0

/-- The instruction a byte is read as goes on by R119's row of its context. -/
theorem phaseAfter_of_decodeByte {c : Context} {b : Byte} {i : Instr} (h : decodeByte c b = .ok i) :
    phaseAfter c.state i = byteSuccessor c := by
  obtain ⟨phase, d, x⟩ := c
  cases phase with
  | idle =>
    obtain rfl := Except.ok.inj h
    cases b.getLsbD 0 <;> rfl
  | subAddressHigh | subAddressLow => cases h; rfl
  | data0 | data1 | data2 | data3 => cases d <;> cases x <;> cases h <;> rfl

/-- The address advances after a word's last byte (R117). -/
theorem addrAfter_of_word_end {c : Context} {b : Byte} {i : Instr} (a : Word16) (h : decodeByte c b = .ok i)
    (hend : (c.state = .data1 ∧ c.cls = .ctrl) ∨ c.state = .data3) : addrAfter a i = a + 1 := by
  obtain ⟨phase, d, x⟩ := c
  rcases hend with ⟨rfl, rfl⟩ | rfl
  · cases d <;> cases h <;> rfl
  · cases d <;> cases x <;> cases h <;> rfl

/-- A step with an event to take runs the instruction that the event is read as. -/
theorem exec_of_step {s t : State} {e : Event} {rest : List Event} (h : step s = .next t) (hin : s.input = e :: rest) :
    ∃ i, decode (contextOf s) e = .ok i ∧ exec i (s.setInput rest) = .next t := by
  obtain ⟨-, ⟨hnil, -⟩ | ⟨e', rest', i, hcons, hdec, hexec⟩⟩ := step_cases h
  · rw [hin] at hnil
    cases hnil
  · obtain ⟨rfl, rfl⟩ := List.cons.inj (hin.symm.trans hcons)
    exact ⟨i, hdec, hexec⟩

/-- R119 for a byte: the next phase, and the advance after a word's last byte. -/
theorem step_transmit {s t : State} {b : Byte} {rest : List Event} (h : step s = .next t)
    (hin : s.input = .transmit b :: rest) :
    t.tState = byteSuccessor (contextOf s) ∧
      ((s.tState = .data1 ∧ classOf s.tAddr = .ctrl) ∨ s.tState = .data3 → t.tAddr = nextAddr s) := by
  obtain ⟨i, hdec, hexec⟩ := exec_of_step h hin
  obtain ⟨-, -, hphase, haddr⟩ := exec_frame hexec
  constructor
  · rw [hphase]
    exact phaseAfter_of_decodeByte hdec
  · intro hend
    rw [haddr, ← tAddr_add_one]
    exact addrAfter_of_word_end _ hdec hend

/-- Settles O10: R119 row by row; in `Data2` and `Data3` the invariant gives the class (R32 item 1). -/
theorem transitionFunctionOfStep : Obligations.TransitionFunctionOfStep := by
  intro s t rest hinv hstep
  refine ⟨fun b hin => ?bytes, fun hin => ?selDeassert, fun hin => ?reset⟩
  case bytes =>
    obtain ⟨hphase, hadvance⟩ := step_transmit hstep hin
    simp only [byteSuccessor, contextOf] at hphase
    refine ⟨?_, ?_, ?_, ?_, ?_, ?_, ?_, ?_⟩
    · intro hs; rwa [hs] at hphase
    · intro hs; rwa [hs] at hphase
    · intro hs; rwa [hs] at hphase
    · intro hs; rwa [hs] at hphase
    · intro hs hbound
      have hctrl := classOf_ctrl.2 hbound
      rw [hs, hctrl] at hphase
      exact ⟨hphase, hadvance (.inl ⟨hs, hctrl⟩)⟩
    · intro hs hbound
      rwa [hs, classOf_mem.2 hbound] at hphase
    · intro hs
      rw [hs] at hphase
      exact ⟨hinv.phase (.inl hs), hphase⟩
    · intro hs
      rw [hs] at hphase
      exact ⟨hinv.phase (.inr hs), hphase, hadvance (.inr hs)⟩
  case selDeassert =>
    obtain ⟨i, hdec, hexec⟩ := exec_of_step hstep hin
    cases hdec
    exact (exec_frame hexec).2.2.1
  case reset =>
    obtain ⟨i, hdec, hexec⟩ := exec_of_step hstep hin
    cases hdec
    exact (exec_frame hexec).2.2.1

end Sys2Proof.Machine

/-! PROOFS. What a step does to the registers, memory and the page (10_state.md R24 to R29), said once, and the rules and
invariants that follow. -/

namespace Sys2Proof.Machine

open Sys2Proof Sys2Proof.Claims

/-- The four things a step can do to what the block stores: nothing, the commit of a register, the commit of a memory
word, and a reset. -/
inductive StepEffect (s t : State) : Prop
  | keeps (hreg : t.reg = s.reg) (hmem : t.mem = s.mem) (hpage : t.page = s.page)
  | storesReg (hbyte : ∃ b rest, s.input = .transmit b :: rest) (hphase : s.tState = .data1) (hdir : s.tDir = .write)
      (hctrl : classOf s.tAddr = .ctrl) (e : RegEntry) (hdecl : lookup s.cfg.regTable s.tAddr = some e)
      (hmode : e.mode ≠ .ro) (v : Word16) (hreg : t.reg = regSet s.reg s.tAddr v) (hmem : t.mem = s.mem)
      (hpage : t.page = if e.tag = some .pageSelect then pageOfValue s.cfg v else s.page)
  | storesMem (hbyte : ∃ b rest, s.input = .transmit b :: rest) (hphase : s.tState = .data3) (hdir : s.tDir = .write)
      (hclass : classOf s.tAddr = .mem) (v : Word32) (hreg : t.reg = s.reg)
      (hmem : t.mem = (safeloadCheck (memWrite s s.tAddr.toNat v .current) s.tAddr v).mem) (hpage : t.page = s.page)
  | resets (hbyte : ∃ rest, s.input = .reset :: rest) (hreg : t.reg = resetRegs s.reg s.cfg.regTable)
      (hmem : t.mem = s.mem)
      (hpage : t.page = match s.cfg.pageOnReset with
        | .fromRegisterReset => pageAtReset s.cfg
        | .unchanged => s.page)

/-- The commit of a 16-bit word to the bank, by what `regWrite` can do; a well-formed table has tags on `RWSE` entries
alone (R11 item 9). -/
theorem stepEffect_of_wr16D1 {s t : State} {b : Byte} {rest : List Event} (hwf : wellFormed s.cfg = true)
    (hin : s.input = .transmit b :: rest) (hphase : s.tState = .data1) (hdir : s.tDir = .write)
    (hctrl : classOf s.tAddr = .ctrl) (hexec : exec (.wr16D1 b) (s.setInput rest) = .next t) : StepEffect s t := by
  rw [exec_wr16D1_ctrl (s := s.setInput rest) b hctrl] at hexec
  cases hexec
  rcases regWrite_cases ((s.setInput rest).setBuf { s.tBuf with b1 := b }) s.tAddr (word16Of s.tBuf.b0 b) with
    ⟨hkeep, -⟩ | ⟨e, hdecl, hmode, hstore⟩
  · exact .keeps (by simp [endWord, advance, hkeep]) (by simp [endWord, advance]) (by simp [endWord, advance, hkeep])
  · refine .storesReg ⟨b, rest, hin⟩ hphase hdir hctrl e hdecl hmode (word16Of s.tBuf.b0 b) ?reg ?mem ?page
    case mem => simp [endWord, advance]
    case reg =>
      rcases hstore with ⟨hw, -⟩ | ⟨hw, -⟩ | ⟨hw, -⟩ <;> simp [endWord, advance, hw, storeReg]
    case page =>
      rcases hstore with ⟨hw, hplain⟩ | ⟨hw, -, htag⟩ | ⟨hw, -, htag⟩
      · have huntagged : e.tag ≠ some .pageSelect := by
          intro htag
          rcases hplain with hrw | hnone
          · have hrwse := (tag_isSome_iff hwf (lookup_some hdecl).1).1 (by rw [htag]; rfl)
            rw [hrw] at hrwse
            cases hrwse
          · rw [hnone] at htag
            cases htag
        simp [endWord, advance, hw, storeReg, huntagged]
      · simp [endWord, advance, hw, htag]
      · simp [endWord, advance, hw, storeReg, htag]

/-- The commit of a 32-bit word to memory. -/
theorem stepEffect_of_wr32D3 {s t : State} {b : Byte} {rest : List Event} (hin : s.input = .transmit b :: rest)
    (hphase : s.tState = .data3) (hdir : s.tDir = .write) (hclass : classOf s.tAddr = .mem)
    (hexec : exec (.wr32D3 b) (s.setInput rest) = .next t) : StepEffect s t := by
  rw [exec_wr32D3_eq (s := s.setInput rest) b hclass] at hexec
  cases hexec
  refine .storesMem ⟨b, rest, hin⟩ hphase hdir hclass (written32 s b) rfl ?mem rfl
  case mem =>
    have hstore := memWrite_mem_congr (s := s) (t := s.setInput rest) rfl rfl rfl s.tAddr.toNat (written32 s b) .current
    exact safeloadCheck_mem_congr (s := memWrite s s.tAddr.toNat (written32 s b) .current)
      (t := afterStore (s.setInput rest) b) (by simp) (by simp) hstore _ _

theorem stepEffect_of_step {s t : State} (h : step s = .next t) : StepEffect s t := by
  obtain ⟨hwf, ⟨-, rfl⟩ | ⟨e, rest, i, hin, hdec, hexec⟩⟩ := step_cases h
  · exact .keeps rfl rfl rfl
  · obtain ⟨rfl, -, hread⟩ := Laws.DecodeSound.decode_sound i _ _ hdec
    rcases exec_storage hexec with ⟨hreg, hmem, hpage⟩ | ⟨b, rfl⟩ | ⟨b, rfl⟩ | rfl
    · exact .keeps hreg hmem hpage
    · simp only [Instr.readIn, contextOf, beq_iff_eq, Context.mk.injEq] at hread
      obtain ⟨hphase, hdir, hctrl⟩ := hread
      exact stepEffect_of_wr16D1 hwf hin hphase hdir hctrl hexec
    · simp only [Instr.readIn, contextOf, beq_iff_eq, Context.mk.injEq] at hread
      obtain ⟨hphase, hdir, hclass⟩ := hread
      exact stepEffect_of_wr32D3 hin hphase hdir hclass hexec
    · rw [exec_reset_eq] at hexec
      cases hexec
      exact .resets ⟨rest, hin⟩ rfl rfl rfl

/-! ### Who may change what -/

/-- Settles O42 (R25, R171). -/
theorem onlyMemoryCommitsChangeMemory : Obligations.OnlyMemoryCommitsChangeMemory := by
  intro s t hstep hne
  cases stepEffect_of_step hstep with
  | keeps _ hmem _ => exact absurd hmem hne
  | storesReg _ _ _ _ _ _ _ _ _ hmem _ => exact absurd hmem hne
  | resets _ _ hmem _ => exact absurd hmem hne
  | storesMem hbyte hphase hdir hclass => exact ⟨hbyte, hphase, hdir, classOf_mem.1 hclass⟩

/-- Settles O43: a store reaches the register at `T.addr` and no other (R24, R145). -/
theorem onlyCommitsAndResetChangeRegisters : Obligations.OnlyCommitsAndResetChangeRegisters := by
  intro s t a hstep hne
  cases stepEffect_of_step hstep with
  | keeps hreg => exact absurd (by rw [hreg]) hne
  | storesMem _ _ _ _ _ hreg => exact absurd (by rw [hreg]) hne
  | resets hbyte => exact .inl hbyte
  | storesReg hbyte hphase hdir hctrl e hdecl hmode v hreg =>
    by_cases ha : a = s.tAddr
    · subst ha
      exact .inr ⟨hbyte, hphase, hdir, rfl, classOf_ctrl.1 hctrl, e, hdecl, hmode⟩
    · exact absurd (by rw [hreg, regGet_regSet_other _ _ ha]) hne

/-- Settles O44: the page-select entry stands at `PAGE_REG` (R11 item 7). -/
theorem onlyPageSelectAndResetChangePage : Obligations.OnlyPageSelectAndResetChangePage := by
  intro s t hstep hne
  have hwf := (step_cases hstep).1
  cases stepEffect_of_step hstep with
  | keeps _ _ hpage => exact absurd hpage hne
  | storesMem _ _ _ _ _ _ _ hpage => exact absurd hpage hne
  | resets hbyte _ _ hpage =>
    cases hmode : s.cfg.pageOnReset with
    | fromRegisterReset => exact .inl ⟨hbyte, rfl⟩
    | unchanged => rw [hmode] at hpage; exact absurd hpage hne
  | storesReg hbyte hphase hdir _ e hdecl _ v _ _ hpage =>
    by_cases htag : e.tag = some .pageSelect
    · obtain ⟨hmem, haddr⟩ := lookup_some hdecl
      exact .inr ⟨hbyte, hphase, hdir, haddr.symm.trans (pageSelect_at_pageReg hwf hmem htag).1⟩
    · rw [if_neg htag] at hpage
      exact absurd hpage hne

/-! ### The invariant of the reachable states -/

/-- An instruction that leaves the decoder in `Data2` or `Data3` leaves the address alone, and was read there already or
at a memory-space address. -/
theorem late_phase_after {c : Context} {i : Instr} (a : Word16) (hread : i.readIn c = true)
    (h : phaseAfter c.state i = .data2 ∨ phaseAfter c.state i = .data3) :
    addrAfter a i = a ∧ ((c.state = .data2 ∨ c.state = .data3) ∨ c.cls = .mem) := by
  cases i with
  | wr32D1 | rd32D1 | wr32D2 | rd32D2 =>
    simp only [Instr.readIn, beq_iff_eq] at hread
    subst hread
    exact ⟨rfl, .inr rfl⟩
  | selAssert | bulkRead | regExport => exact ⟨rfl, .inl h⟩
  | _ => simp [phaseAfter] at h

/-- R32 item 1 is kept. -/
theorem step_keeps_phaseInSpace {s t : State} (hinv : PhaseInSpace s) (h : step s = .next t) : PhaseInSpace t := by
  obtain ⟨-, ⟨-, rfl⟩ | ⟨e, rest, i, -, hdec, hexec⟩⟩ := step_cases h
  · exact hinv
  · intro hlate
    obtain ⟨-, -, hphase, haddr⟩ := exec_frame hexec
    obtain ⟨-, -, hread⟩ := Laws.DecodeSound.decode_sound i _ _ hdec
    rw [hphase] at hlate
    obtain ⟨hsame, hphase' | hclass⟩ := late_phase_after s.tAddr hread hlate
    · rw [haddr, State.setInput_tAddr, hsame]
      exact hinv hphase'
    · rw [haddr, State.setInput_tAddr, hsame]
      exact classOf_mem.1 hclass

/-- R24 is kept: a store is to a declared register, and a reset rewrites the declared ones. -/
theorem step_keeps_regsDeclared {s t : State} (hinv : RegsDeclared s) (h : step s = .next t) : RegsDeclared t := by
  have hcfg := step_cfg h
  unfold RegsDeclared at hinv ⊢
  rw [hcfg]
  cases stepEffect_of_step h with
  | keeps hreg => rw [hreg, hinv]
  | storesMem _ _ _ _ _ hreg => rw [hreg, hinv]
  | storesReg _ _ _ _ e hdecl _ v hreg =>
    obtain ⟨hmem, haddr⟩ := lookup_some hdecl
    rw [hreg, regSet_addrs _ _ _ (by rw [hinv, ← haddr]; exact List.mem_map_of_mem hmem), hinv]
  | resets _ hreg => rw [hreg, resetRegs_addrs _ _ fun e he => hinv ▸ List.mem_map_of_mem he, hinv]

/-- R141 is kept: no store is to a read-only register, and a reset gives it its reset value. -/
theorem step_keeps_readOnlyAtReset {s t : State} (hinv : ReadOnlyAtReset s) (h : step s = .next t) :
    ReadOnlyAtReset t := by
  have hwf := (step_cases h).1
  have hcfg := step_cfg h
  intro e he hro
  rw [hcfg] at he
  cases stepEffect_of_step h with
  | keeps hreg => rw [hreg, hinv e he hro]
  | storesMem _ _ _ _ _ hreg => rw [hreg, hinv e he hro]
  | resets _ hreg => rw [hreg, regGet_resetRegs _ (addrsDistinct_of_wellFormed hwf) he]
  | storesReg _ _ _ _ f hdecl hmode v hreg =>
    have hother : e.addr ≠ s.tAddr := by
      intro haddr
      rw [← haddr, lookup_of_mem_table hwf he] at hdecl
      cases hdecl
      exact hmode hro
    rw [hreg, regGet_regSet_other _ _ hother, hinv e he hro]

/-- R32 item 2 is kept. -/
theorem step_keeps_memoryInRegions {s t : State} (hinv : MemoryInRegions s) (h : step s = .next t) :
    MemoryInRegions t := by
  have hcfg := step_cfg h
  unfold MemoryInRegions at hinv ⊢
  rw [hcfg]
  cases stepEffect_of_step h with
  | keeps _ hmem => rw [hmem]; exact hinv
  | storesReg _ _ _ _ _ _ _ _ _ hmem => rw [hmem]; exact hinv
  | resets _ _ hmem => rw [hmem]; exact hinv
  | storesMem _ _ _ hclass v _ hmem =>
    rw [hmem, ← decoderCommit_mem v hclass]
    exact decoderCommit_memory _ _ hinv

/-- Settles O38: the parameters never change, and each part of the invariant is kept (R24, R32, R141). -/
theorem stepKeepsStateInvariant : Obligations.StepKeepsStateInvariant := by
  intro s t hinv hstep
  exact {
    wellFormed := by rw [step_cfg hstep]; exact hinv.wellFormed
    phase := step_keeps_phaseInSpace hinv.phase hstep
    regs := step_keeps_regsDeclared hinv.regs hstep
    readOnly := step_keeps_readOnlyAtReset hinv.readOnly hstep
    memory := step_keeps_memoryInRegions hinv.memory hstep }

/-! ### The page and its register -/

theorem construct_pageAgrees {p : Params} (hwf : wellFormed p = true) : PageAgrees (State.construct p) := by
  obtain ⟨e, hlook, -⟩ := lookup_pageReg hwf
  have hpage : (State.construct p).page = pageOfValue p e.reset := pageAtReset_of_lookup hlook
  have hreg : regGet (State.construct p).reg p.pageReg = e.reset := regGet_resetValues hlook
  exact hpage.trans (congrArg (pageOfValue p) hreg.symm)

theorem pageAgrees_congr {s t : State} (hcfg : t.cfg = s.cfg) (hreg : t.reg = s.reg) (hpage : t.page = s.page)
    (h : PageAgrees s) : PageAgrees t := by
  unfold PageAgrees
  rw [hcfg, hreg, hpage]
  exact h

/-- A store sets the page with the page-select register, and reaches neither otherwise (R146, R148). -/
theorem storesReg_keeps_pageAgrees {s t : State} {e : RegEntry} {v : Word16} (hwf : wellFormed s.cfg = true)
    (hcfg : t.cfg = s.cfg) (hagree : PageAgrees s) (hdecl : lookup s.cfg.regTable s.tAddr = some e)
    (hreg : t.reg = regSet s.reg s.tAddr v)
    (hpage : t.page = if e.tag = some .pageSelect then pageOfValue s.cfg v else s.page) : PageAgrees t := by
  obtain ⟨hmem, haddr⟩ := lookup_some hdecl
  obtain ⟨pageEntry, hlook, -, -, htagPage, -⟩ := lookup_pageReg hwf
  unfold PageAgrees
  rw [hcfg, hreg, hpage]
  by_cases htag : e.tag = some .pageSelect
  · rw [if_pos htag, ← (pageSelect_at_pageReg hwf hmem htag).1, haddr, regGet_regSet_same]
  · have hother : s.cfg.pageReg ≠ s.tAddr := by
      intro hsame
      rw [← hsame, hlook] at hdecl
      cases hdecl
      exact htag htagPage
    rw [if_neg htag, regGet_regSet_other _ _ hother]
    exact hagree

/-- Settles O41: the two change together, by the page-select register's commit or by a reset (R148, R223). -/
theorem stepKeepsPageInAgreement : Obligations.StepKeepsPageInAgreement := by
  refine ⟨fun p hwf => construct_pageAgrees hwf, ?step⟩
  case step =>
    intro s t hmode hagree hstep
    have hwf := (step_cases hstep).1
    have hcfg := step_cfg hstep
    cases stepEffect_of_step hstep with
    | keeps hreg _ hpage => exact pageAgrees_congr hcfg hreg hpage hagree
    | storesMem _ _ _ _ _ hreg _ hpage => exact pageAgrees_congr hcfg hreg hpage hagree
    | storesReg _ _ _ _ e hdecl _ v hreg _ hpage => exact storesReg_keeps_pageAgrees hwf hcfg hagree hdecl hreg hpage
    | resets _ hreg _ hpage =>
      obtain ⟨e, hlook, hmem, haddr, -⟩ := lookup_pageReg hwf
      have hvalue := regGet_resetRegs s.reg (addrsDistinct_of_wellFormed hwf) hmem
      rw [haddr] at hvalue
      unfold PageAgrees
      rw [hcfg, hreg, hpage, hmode, hvalue]
      exact pageAtReset_of_lookup hlook

end Sys2Proof.Machine

/-! PROOFS. What the block stores against the transaction that reaches it: the register bank, memory and the log depend on
no field of `T` and on no event, so a rule's storage part may be run in any transaction. -/

namespace Sys2Proof.Machine

open Sys2Proof Sys2Proof.Claims

/-- The storage, the parameters and the trace of `s`, with the transaction and the events of `w`. -/
def State.withTransactionOf (s w : State) : State :=
  { s with tState := w.tState, tDir := w.tDir, tAddr := w.tAddr, tBuf := w.tBuf, input := w.input }

section Fields

variable (s w : State)

@[simp] theorem State.withTransactionOf_cfg : (s.withTransactionOf w).cfg = s.cfg := rfl
@[simp] theorem State.withTransactionOf_tState : (s.withTransactionOf w).tState = w.tState := rfl
@[simp] theorem State.withTransactionOf_tDir : (s.withTransactionOf w).tDir = w.tDir := rfl
@[simp] theorem State.withTransactionOf_tAddr : (s.withTransactionOf w).tAddr = w.tAddr := rfl
@[simp] theorem State.withTransactionOf_tBuf : (s.withTransactionOf w).tBuf = w.tBuf := rfl
@[simp] theorem State.withTransactionOf_reg : (s.withTransactionOf w).reg = s.reg := rfl
@[simp] theorem State.withTransactionOf_mem : (s.withTransactionOf w).mem = s.mem := rfl
@[simp] theorem State.withTransactionOf_page : (s.withTransactionOf w).page = s.page := rfl
@[simp] theorem State.withTransactionOf_input : (s.withTransactionOf w).input = w.input := rfl
@[simp] theorem State.withTransactionOf_trace : (s.withTransactionOf w).trace = s.trace := rfl

end Fields

/-! ### The operations of the bank and of memory -/

theorem regRead_withTransactionOf (s w : State) (a : Word16) :
    regRead (s.withTransactionOf w) a = ((regRead s a).1, (regRead s a).2.withTransactionOf w) := by
  cases hdecl : lookup s.cfg.regTable a with
  | none => simp only [regRead, State.withTransactionOf_cfg, hdecl]; rfl
  | some e => simp only [regRead, State.withTransactionOf_cfg, hdecl, regPeek_eq]; rfl

theorem decoderRead_withTransactionOf (s w : State) (a : Word16) :
    decoderRead (s.withTransactionOf w) a = ((decoderRead s a).1, (decoderRead s a).2.withTransactionOf w) := by
  cases hclass : classOf a with
  | ctrl => rw [decoderRead_ctrl hclass, decoderRead_ctrl hclass, regRead_withTransactionOf]
  | mem =>
    have hplace := resolve_congr (s := s) (t := s.withTransactionOf w) rfl rfl a.toNat .current
    have hword := memRead_congr (s := s) (t := s.withTransactionOf w) rfl rfl rfl a.toNat .current
    rw [decoderRead_memSpace hclass, decoderRead_memSpace hclass, hplace, hword]
    by_cases hnone : resolve s a.toNat .current = none
    · rw [if_pos hnone, if_pos hnone]; rfl
    · rw [if_neg hnone, if_neg hnone]

theorem regWrite_withTransactionOf (s w : State) (a v : Word16) :
    regWrite (s.withTransactionOf w) a v = (regWrite s a v).withTransactionOf w := by
  cases hdecl : lookup s.cfg.regTable a with
  | none => rw [regWrite_of_lookup_none v hdecl, regWrite_of_lookup_none v (by exact hdecl)]
  | some e =>
    have hdecl' : lookup (s.withTransactionOf w).cfg.regTable a = some e := hdecl
    cases hmode : e.mode with
    | ro => rw [regWrite_of_ro hdecl v hmode, regWrite_of_ro hdecl' v hmode]
    | rw => rw [regWrite_of_rw hdecl v hmode, regWrite_of_rw hdecl' v hmode]; rfl
    | rwse =>
      rw [regWrite_of_rwse hdecl v hmode, regWrite_of_rwse hdecl' v hmode]
      rcases e.tag with _ | _ | _ <;> rfl

theorem decoderCommit_withTransactionOf (s w : State) (a : Word16) (v : Word32) :
    decoderCommit (s.withTransactionOf w) a v = (decoderCommit s a v).withTransactionOf w := by
  cases hclass : classOf a with
  | ctrl => rw [decoderCommit_ctrl v hclass, decoderCommit_ctrl v hclass, regWrite_withTransactionOf]
  | mem =>
    have hstore := memWrite_mem_congr (s := s) (t := s.withTransactionOf w) rfl rfl rfl a.toNat v .current
    have hcheck := safeloadCheck_mem_congr (s := memWrite s a.toNat v .current)
      (t := memWrite (s.withTransactionOf w) a.toNat v .current) (by simp) (by simp) hstore a v
    rw [decoderCommit_mem v hclass, decoderCommit_mem v hclass, safeloadCheck_eq, hcheck, memWrite_eq, hstore,
      safeloadCheck_eq (memWrite s a.toNat v .current), memWrite_eq s]
    rfl

/-! ### The bytes that reach storage, in any transaction -/

theorem exec_wr16D1_withTransactionOf (s w : State) (b : Byte) :
    exec (.wr16D1 b) (s.withTransactionOf w) =
      .next ((decoderCommit s w.tAddr ((word16Of w.tBuf.b0 b).setWidth 32)).answerDefault.withTransactionOf
        (endWord (w.setBuf { w.tBuf with b1 := b }))) := by
  have hcommit := decoderCommit_withTransactionOf s (w.setBuf { w.tBuf with b1 := b }) w.tAddr
    ((word16Of w.tBuf.b0 b).setWidth 32)
  exact congrArg (fun u => Host.Outcome.next (endWord u).answerDefault) hcommit

theorem exec_wr32D3_withTransactionOf (s w : State) (b : Byte) :
    exec (.wr32D3 b) (s.withTransactionOf w) =
      .next ((decoderCommit s w.tAddr (word32Of w.tBuf.b0 w.tBuf.b1 w.tBuf.b2 b)).answerDefault.withTransactionOf
        (endWord (w.setBuf { w.tBuf with b3 := b }))) := by
  have hcommit := decoderCommit_withTransactionOf s (w.setBuf { w.tBuf with b3 := b }) w.tAddr
    (word32Of w.tBuf.b0 w.tBuf.b1 w.tBuf.b2 b)
  exact congrArg (fun u => Host.Outcome.next (endWord u).answerDefault) hcommit

theorem exec_rd16D0_withTransactionOf (s w : State) (b : Byte) :
    let v := bytesOf16 ((decoderRead s w.tAddr).1.setWidth 16)
    exec (.rd16D0 b) (s.withTransactionOf w) =
      .next (((decoderRead s w.tAddr).2.answer v.1).withTransactionOf
        ((w.setBuf { w.tBuf with b0 := v.1, b1 := v.2 }).setPhase .data1)) := by
  simp only [exec, execRd16D0, State.withTransactionOf_tAddr, decoderRead_withTransactionOf]
  rfl

theorem exec_rd32D0_withTransactionOf (s w : State) (b : Byte) :
    let v := bytesOf32 (decoderRead s w.tAddr).1
    exec (.rd32D0 b) (s.withTransactionOf w) =
      .next (((decoderRead s w.tAddr).2.answer v.b0).withTransactionOf ((w.setBuf v).setPhase .data1)) := by
  simp only [exec, execRd32D0, State.withTransactionOf_tAddr, decoderRead_withTransactionOf]
  rfl

/-! ### The diagnostic results -/

theorem bulkResult_withTransactionOf (s w : State) (start : Word16) (count : Nat) (page : Page) (sink : SinkAnswer) :
    bulkResult (s.withTransactionOf w) start count page sink = bulkResult s start count page sink := by
  have hread := memRead_congr (s := s) (t := s.withTransactionOf w) rfl rfl rfl
  cases sink with
  | ok => simp only [bulkResult, readBlock_eq_map, hread]
  | err message => rfl

theorem exportPairs_withTransactionOf (s w : State) (table : List RegEntry) :
    exportPairs (s.withTransactionOf w) table = exportPairs s table := by
  induction table with
  | nil => rfl
  | cons e rest ih =>
    rw [exportPairs, exportPairs, ih]
    rfl

theorem tableResult_withTransactionOf (s w : State) (sink : SinkAnswer) :
    tableResult (s.withTransactionOf w) sink = tableResult s sink := by
  cases sink with
  | ok => exact congrArg Observation.regExport (exportPairs_withTransactionOf s w s.cfg.regTable)
  | err message => rfl

/-! ### The events still to take -/

/-- No instruction looks at the events that are still to take. -/
theorem exec_setInput {i : Instr} {s t : State} (l : List Event) (h : exec i s = .next t) :
    exec i (s.setInput l) = .next (t.setInput l) := by
  cases i with
  | wr16D1 b =>
    cases (exec_wr16D1_withTransactionOf s s b).symm.trans h
    exact exec_wr16D1_withTransactionOf s (s.setInput l) b
  | wr32D3 b =>
    cases (exec_wr32D3_withTransactionOf s s b).symm.trans h
    exact exec_wr32D3_withTransactionOf s (s.setInput l) b
  | rd16D0 b =>
    cases (exec_rd16D0_withTransactionOf s s b).symm.trans h
    exact exec_rd16D0_withTransactionOf s (s.setInput l) b
  | rd32D0 b =>
    cases (exec_rd32D0_withTransactionOf s s b).symm.trans h
    exact exec_rd32D0_withTransactionOf s (s.setInput l) b
  | caWr b => rw [exec_caWr, chipAddress_answerDefault] at h ⊢; cases h; rfl
  | caRd b => rw [exec_caRd, chipAddress_answerDefault] at h ⊢; cases h; rfl
  | reset => rw [exec_reset_eq] at h ⊢; cases h; rfl
  | bulkRead start count page sink =>
    have hsame := bulkResult_withTransactionOf s (s.setInput l) start count page sink
    rw [exec_bulkRead] at h ⊢
    cases h
    exact congrArg (fun o => Host.Outcome.next ((s.setInput l).emit o)) hsame
  | regExport sink =>
    have hsame := tableResult_withTransactionOf s (s.setInput l) sink
    rw [exec_regExport] at h ⊢
    cases h
    exact congrArg (fun o => Host.Outcome.next ((s.setInput l).emit o)) hsame
  | _ => cases h; rfl

end Sys2Proof.Machine

/-! PROOFS. Runs (70_reset_and_hazards.md R233) as a relation on states, built an event at a time, and its tie to
`runEvents`. -/

namespace Sys2Proof.Machine

open Sys2Proof Sys2Proof.Claims

/-- The block takes the listed events from the first state to the last. -/
inductive Takes : State → List Event → State → Prop
  | nil (s : State) : Takes s [] s
  | cons {s t u : State} {e : Event} {i : Instr} {rest : List Event} (hdec : decode (contextOf s) e = .ok i)
      (hexec : exec i s = .next t) (hrest : Takes t rest u) : Takes s (e :: rest) u

theorem Takes.single {s t : State} {e : Event} {i : Instr} (hdec : decode (contextOf s) e = .ok i)
    (hexec : exec i s = .next t) : Takes s [e] t := .cons hdec hexec (.nil t)

theorem Takes.append {s t u : State} {l l' : List Event} (h : Takes s l t) (h' : Takes t l' u) : Takes s (l ++ l') u := by
  induction h with
  | nil s => exact h'
  | cons hdec hexec _ ih => exact .cons hdec hexec (ih h')

/-- The relation is the run: each step takes the next of the listed events. -/
theorem runEvents_of_takes {s t : State} {l : List Event} (hwf : wellFormed s.cfg = true) (h : Takes s l t) :
    runEvents s l = .next (t.setInput []) := by
  induction h with
  | nil s => rfl
  | @cons s t u e i rest hdec hexec _ ih =>
    have hstep : step (s.setInput (e :: rest)) = .next (t.setInput rest) :=
      (step_of_decode (s := s.setInput (e :: rest)) hwf rfl hdec).trans (exec_setInput (s := s) rest hexec)
    rw [runEvents, List.length_cons, stepN, hstep]
    exact ih (by rw [exec_cfg hexec]; exact hwf)

/-! ### Replies of `DEFAULT_OUT` -/

/-- `k` replies of `DEFAULT_OUT` (30_encoding.md R86). -/
def State.giveDefaults (s : State) : Nat → State
  | 0 => s
  | k + 1 => (s.giveDefaults k).answerDefault

theorem State.giveDefaults_eq (s : State) (k : Nat) :
    s.giveDefaults k = { s with trace := s.trace ++ List.replicate k (defaultReply s) } := by
  induction k with
  | zero => simp [State.giveDefaults]
  | succ k ih =>
    rw [State.giveDefaults, ih, List.replicate_succ', ← List.append_assoc]
    rfl

section GiveDefaults

variable (s : State) (k : Nat)

@[simp] theorem State.giveDefaults_cfg : (s.giveDefaults k).cfg = s.cfg := by rw [State.giveDefaults_eq]
@[simp] theorem State.giveDefaults_reg : (s.giveDefaults k).reg = s.reg := by rw [State.giveDefaults_eq]
@[simp] theorem State.giveDefaults_mem : (s.giveDefaults k).mem = s.mem := by rw [State.giveDefaults_eq]
@[simp] theorem State.giveDefaults_page : (s.giveDefaults k).page = s.page := by rw [State.giveDefaults_eq]
@[simp] theorem State.giveDefaults_trace :
    (s.giveDefaults k).trace = s.trace ++ List.replicate k (defaultReply s) := by rw [State.giveDefaults_eq]

end GiveDefaults

/-! ### The header (30_encoding.md R80 to R82) -/

theorem chipIdOf_chipByte (p : Params) (d : Direction) : chipIdOf (chipByte p d) = p.chipId := by
  have hbit := (directionBit d).isLt
  rw [chipIdOf_eq_iff, chipByte, BitVec.toNat_append, ← Nat.shiftLeft_add_eq_or_of_lt hbit, Nat.shiftLeft_eq]
  omega

/-- A header's first byte carries the block's own identifier, so nothing is logged. -/
theorem chipAddress_chipByte (s : State) (d : Direction) :
    chipAddress s (chipByte s.cfg d) d = (s.setDir d).setPhase .subAddressHigh := by
  rw [chipAddress, if_pos (chipIdOf_chipByte s.cfg d)]

theorem decode_of_idle {s : State} (hidle : s.tState = .idle) (b : Byte) :
    decode (contextOf s) (.transmit b) = .ok (if b.getLsbD 0 then .caRd b else .caWr b) := by
  rw [contextOf, hidle, decode_idle]

theorem takes_chipByte {s : State} (hidle : s.tState = .idle) (d : Direction) :
    Takes s [.transmit (chipByte s.cfg d)] (((s.giveDefaults 1).setDir d).setPhase .subAddressHigh) := by
  have hdec := decode_of_idle hidle (chipByte s.cfg d)
  have hbit : (chipByte s.cfg d).getLsbD 0 = (directionBit d).getLsbD 0 := by
    rw [chipByte, BitVec.getLsbD_append]
    rfl
  rw [hbit] at hdec
  cases d with
  | write => exact .single hdec ((exec_caWr _ s).trans (by rw [chipAddress_chipByte]; rfl))
  | read => exact .single hdec ((exec_caRd _ s).trans (by rw [chipAddress_chipByte]; rfl))

/-- The two sub-address bytes replace the whole stale address. -/
theorem withLowByte_withHighByte (stale a : Word16) :
    withLowByte (withHighByte stale (a.extractLsb' 8 8)) (a.extractLsb' 0 8) = a := by
  have ha := a.isLt
  apply BitVec.eq_of_toNat_eq
  simp only [withLowByte_eq_ofNat, withHighByte_eq_ofNat, BitVec.toNat_ofNat, BitVec.extractLsb'_toNat,
    Nat.shiftRight_eq_div_pow]
  omega

/-- The state after a header: the direction, the whole address, and three default replies. -/
def afterHeader (s : State) (d : Direction) (a : Word16) : State :=
  { s with tState := .data0, tDir := d, tAddr := a, trace := s.trace ++ List.replicate 3 (defaultReply s) }

theorem afterHeader_eq (s : State) (d : Direction) (a : Word16) :
    (((s.giveDefaults 3).setDir d).setAddr a).setPhase .data0 = afterHeader s d a := by
  rw [State.giveDefaults_eq]
  rfl

theorem takes_header {s : State} (hidle : s.tState = .idle) (d : Direction) (a : Word16) :
    Takes s (transmits (headerBytes s.cfg d a)) (afterHeader s d a) := by
  have haddr := withLowByte_withHighByte s.tAddr a
  have hlow : exec (.saLo (a.extractLsb' 0 8)) ((((s.giveDefaults 2).setDir d).setAddr
      (withHighByte s.tAddr (a.extractLsb' 8 8))).setPhase .subAddressLow) =
      .next ((((s.giveDefaults 3).setDir d).setAddr (withLowByte (withHighByte s.tAddr (a.extractLsb' 8 8))
        (a.extractLsb' 0 8))).setPhase .data0) := by rw [exec_saLo]; rfl
  rw [haddr, afterHeader_eq] at hlow
  have htail : Takes (((s.giveDefaults 1).setDir d).setPhase .subAddressHigh)
      [.transmit (a.extractLsb' 8 8), .transmit (a.extractLsb' 0 8)] (afterHeader s d a) :=
    .cons rfl (exec_saHi _ _) (.single rfl hlow)
  exact (takes_chipByte hidle d).append htail

/-! ### One written word (R83, R84, R105, R106, R109 to R112) -/

/-- The row of a byte, with the three parts of its context given apart. -/
theorem decode_of_context {s : State} {x : DecoderState} {d : Direction} {c : AddrClass} {b : Byte} {i : Instr}
    (hphase : s.tState = x) (hdir : s.tDir = d) (hclass : classOf s.tAddr = c) (hrow : decodeByte ⟨x, d, c⟩ b = .ok i) :
    decode (contextOf s) (.transmit b) = .ok i := by
  rw [contextOf, hphase, hdir, hclass]
  exact hrow

theorem transmits_append (l l' : List Byte) : transmits (l ++ l') = transmits l ++ transmits l' :=
  List.map_append

theorem word16Of_bytesOf16 (v : Word16) : word16Of (bytesOf16 v).1 (bytesOf16 v).2 = v := by
  have hv := v.isLt
  apply BitVec.eq_of_toNat_eq
  simp only [word16Of, bytesOf16, toNat_append_byte, BitVec.extractLsb'_toNat, Nat.shiftRight_eq_div_pow]
  omega

theorem word32Of_bytesOf32 (v : Word32) :
    word32Of (bytesOf32 v).b0 (bytesOf32 v).b1 (bytesOf32 v).b2 (bytesOf32 v).b3 = v := by
  have hv := v.isLt
  apply BitVec.eq_of_toNat_eq
  simp only [word32Of, bytesOf32, toNat_append_byte, BitVec.extractLsb'_toNat, Nat.shiftRight_eq_div_pow]
  omega

/-- How many bytes of a word come before the last. -/
def earlyBytes (a : Word16) : Nat := widthOf (classOf a) / 8 - 1

/-- A word written at `T.addr`: the default reply for every byte, the commit before the last of them, and the decoder
at the next word. -/
theorem takes_write_word {s : State} (hphase : s.tState = .data0) (hdir : s.tDir = .write) (v : Word32) :
    ∃ w, Takes s (transmits (wordBytes s.tAddr v))
        ((decoderCommit (s.giveDefaults (earlyBytes s.tAddr)) s.tAddr v).answerDefault.withTransactionOf w) ∧
      w.tState = .data0 ∧ w.tDir = .write ∧ w.tAddr = nextAddr s := by
  cases hclass : classOf s.tAddr with
  | ctrl =>
    have hbytes : wordBytes s.tAddr v = [(bytesOf16 (v.setWidth 16)).1, (bytesOf16 (v.setWidth 16)).2] := by
      rw [wordBytes, hclass]
    have hearly : earlyBytes s.tAddr = 1 := by rw [earlyBytes, hclass]; decide
    have hlast := exec_wr16D1_withTransactionOf (s.giveDefaults 1)
      ((s.setBuf { s.tBuf with b0 := (bytesOf16 (v.setWidth 16)).1 }).setPhase .data1) (bytesOf16 (v.setWidth 16)).2
    have hcommit : decoderCommit (s.giveDefaults 1) s.tAddr
        ((word16Of (bytesOf16 (v.setWidth 16)).1 (bytesOf16 (v.setWidth 16)).2).setWidth 32) =
        decoderCommit (s.giveDefaults 1) s.tAddr v := by
      rw [word16Of_bytesOf16, decoderCommit_ctrl _ hclass, decoderCommit_ctrl _ hclass]
      simp
    rw [hbytes, hearly, ← hcommit]
    exact ⟨_, .cons (decode_of_context hphase hdir hclass rfl) (exec_wr16D0 _ _)
      (.single (decode_of_context rfl hdir hclass rfl) hlast), rfl, hdir, tAddr_add_one s⟩
  | mem =>
    have hbytes : wordBytes s.tAddr v = (bytesOf32 v).toList := by rw [wordBytes, hclass]
    have hearly : earlyBytes s.tAddr = 3 := by rw [earlyBytes, hclass]; decide
    have hlast := exec_wr32D3_withTransactionOf (s.giveDefaults 3)
      ((s.setBuf ⟨(bytesOf32 v).b0, (bytesOf32 v).b1, (bytesOf32 v).b2, s.tBuf.b3⟩).setPhase .data3) (bytesOf32 v).b3
    have hcommit : decoderCommit (s.giveDefaults 3) s.tAddr
        (word32Of (bytesOf32 v).b0 (bytesOf32 v).b1 (bytesOf32 v).b2 (bytesOf32 v).b3) =
        decoderCommit (s.giveDefaults 3) s.tAddr v := by rw [word32Of_bytesOf32]
    rw [hbytes, hearly, ← hcommit]
    exact ⟨_, .cons (decode_of_context hphase hdir hclass rfl) (exec_wr32D0 _ _)
      (.cons (decode_of_context rfl hdir hclass rfl) (exec_wr32D1 _ _)
        (.cons (decode_of_context rfl hdir hclass rfl) (exec_wr32D2 _ _)
          (.single (decode_of_context rfl hdir hclass rfl) hlast))), rfl, hdir, tAddr_add_one s⟩

/-! ### Write bursts (R87, R118) -/

/-- The address `n + 1` words on, by way of the next word's. -/
theorem nextAddr_offset (s : State) (n : Nat) :
    BitVec.ofNat 16 ((nextAddr s).toNat + n) = BitVec.ofNat 16 (s.tAddr.toNat + (n + 1)) := by
  apply BitVec.eq_of_toNat_eq
  simp only [nextAddr, BitVec.toNat_ofNat]
  omega

theorem takes_write_burst {words : List Word32} {s : State} (hphase : s.tState = .data0) (hdir : s.tDir = .write) :
    ∃ t, Takes s (transmits (burstBytes s.tAddr words)) t ∧ t.tState = .data0 ∧ t.tDir = .write ∧
      t.tAddr = BitVec.ofNat 16 (s.tAddr.toNat + words.length) := by
  induction words generalizing s with
  | nil => exact ⟨s, .nil s, hphase, hdir, by simp⟩
  | cons v vs ih =>
    obtain ⟨w, hword, hphase', hdir', haddr'⟩ := takes_write_word hphase hdir v
    obtain ⟨t, hrest, htphase, htdir, htaddr⟩ := ih
      (s := (decoderCommit (s.giveDefaults (earlyBytes s.tAddr)) s.tAddr v).answerDefault.withTransactionOf w) hphase' hdir'
    rw [State.withTransactionOf_tAddr, haddr'] at hrest htaddr
    rw [nextAddr_offset] at htaddr
    refine ⟨t, ?_, htphase, htdir, htaddr⟩
    rw [burstBytes, transmits_append, tAddr_add_one]
    exact hword.append hrest

/-- Settles O49: each word is taken at the class of its own address (D3), and the address goes on by one mod 2^16. -/
theorem writeBurstAdvancesWordByWord : Obligations.WriteBurstAdvancesWordByWord := by
  intro words s hwf hphase hdir
  obtain ⟨t, htakes, htphase, htdir, htaddr⟩ := takes_write_burst (words := words) hphase hdir
  exact ⟨_, runEvents_of_takes hwf htakes, htphase, htdir, htaddr⟩

/-! ### One read word (R107, R108, R113 to R116) -/

/-- A word read at `T.addr`: its observations, and the decoder at the next word. -/
theorem takes_read_word {s : State} (hphase : s.tState = .data0) (hdir : s.tDir = .read) :
    ∃ u, Takes s (transmits (List.replicate (widthOf (classOf s.tAddr) / 8) 0))
      { s with tState := .data0, tBuf := u, tAddr := nextAddr s, trace := s.trace ++ readObservations s s.tAddr } := by
  cases hclass : classOf s.tAddr with
  | ctrl =>
    have hbound := classOf_ctrl.1 hclass
    have hbytes : transmits (List.replicate (widthOf .ctrl / 8) 0) = [.transmit 0, .transmit 0] := by decide
    rw [hbytes, readObservations, if_pos hbound]
    cases hdecl : lookup s.cfg.regTable s.tAddr with
    | none =>
      have htrace : s.trace ++ [Observation.log (.errReadUnmapped s.tAddr), .reply 0, .reply 0] =
          s.trace ++ [.log (.errReadUnmapped s.tAddr), .reply 0] ++ [.reply 0] := by simp
      rw [htrace]
      exact ⟨_, .cons (decode_of_context hphase hdir hclass rfl) (exec_rd16D0_of_lookup_none 0 hclass hdecl)
        (.single (decode_of_context rfl hdir hclass rfl) (exec_rd16D1 0 _))⟩
    | some e =>
      rw [List.append_cons]
      exact ⟨_, .cons (decode_of_context hphase hdir hclass rfl) (exec_rd16D0_of_lookup 0 hclass hdecl)
        (.single (decode_of_context rfl hdir hclass rfl) (exec_rd16D1 0 _))⟩
  | mem =>
    have hbound := classOf_mem.1 hclass
    have hbytes : transmits (List.replicate (widthOf .mem / 8) 0) =
        [.transmit 0, .transmit 0, .transmit 0, .transmit 0] := by decide
    rw [hbytes, readObservations, if_neg (by omega), ← bytesOf32_toList, Buf.toList, List.map_cons, List.map_cons,
      List.map_cons, List.map_cons, List.map_nil, ← List.append_assoc, List.append_cons, List.append_cons,
      List.append_cons]
    exact ⟨_, .cons (decode_of_context hphase hdir hclass rfl) (exec_rd32D0_mem 0 hclass)
      (.cons (decode_of_context rfl hdir hclass rfl) (exec_rd32D1 0 _)
        (.cons (decode_of_context rfl hdir hclass rfl) (exec_rd32D2 0 _)
          (.single (decode_of_context rfl hdir hclass rfl) (exec_rd32D3 0 _))))⟩

/-! ### Read bursts (R118) -/

/-- A word's observations depend on the parameters, the registers, memory and the page alone. -/
theorem readObservations_congr {s t : State} (hcfg : t.cfg = s.cfg) (hreg : t.reg = s.reg) (hmem : t.mem = s.mem)
    (hpage : t.page = s.page) (a : Word16) : readObservations t a = readObservations s a := by
  simp only [readObservations, hcfg, hreg, resolve_congr hcfg hpage, memRead_congr hcfg hpage hmem]

/-- The observations of a read burst of `k` words from `T.addr`. -/
def burstObservations (s : State) (k : Nat) : List Observation :=
  (List.range k).flatMap fun j => readObservations s (BitVec.ofNat 16 (s.tAddr.toNat + j))

theorem burstObservations_succ (s : State) (k : Nat) (u : Buf) (l : List Observation) :
    burstObservations s (k + 1) = readObservations s s.tAddr ++
      burstObservations { s with tState := .data0, tBuf := u, tAddr := nextAddr s, trace := l } k := by
  have hfirst : BitVec.ofNat 16 (s.tAddr.toNat + 0) = s.tAddr := by simp
  simp only [burstObservations, List.range_succ_eq_map, List.flatMap_cons, List.flatMap_map, hfirst, nextAddr_offset]
  rfl

theorem takes_read_burst (k : Nat) {s : State} (hphase : s.tState = .data0) (hdir : s.tDir = .read) :
    ∃ u, Takes s (transmits (fillerBytes s.tAddr k)) { s with
      tBuf := u, tAddr := BitVec.ofNat 16 (s.tAddr.toNat + k), trace := s.trace ++ burstObservations s k } := by
  induction k generalizing s with
  | zero =>
    have hsame : { s with
        tAddr := BitVec.ofNat 16 (s.tAddr.toNat + 0), trace := s.trace ++ burstObservations s 0 } = s := by
      simp [burstObservations]
    exact ⟨s.tBuf, hsame.symm ▸ Takes.nil s⟩
  | succ k ih =>
    obtain ⟨u, hword⟩ := takes_read_word hphase hdir
    obtain ⟨u', hrest⟩ := ih (s := { s with
      tState := .data0, tBuf := u, tAddr := nextAddr s, trace := s.trace ++ readObservations s s.tAddr }) rfl hdir
    refine ⟨u', ?_⟩
    rw [fillerBytes, transmits_append, burstObservations_succ s k u (s.trace ++ readObservations s s.tAddr),
      ← List.append_assoc, ← nextAddr_offset, tAddr_add_one]
    have hboth := hword.append hrest
    rwa [← hphase] at hboth ⊢

/-- Settles O50: each word is read at its own address in the state that the burst started in, which no read changes. -/
theorem readBurstRepliesCurrentPage : Obligations.ReadBurstRepliesCurrentPage := by
  intro k s hwf hphase hdir
  obtain ⟨u, htakes⟩ := takes_read_burst k hphase hdir
  exact ⟨_, runEvents_of_takes hwf htakes, rfl, rfl, rfl, rfl, hphase, hdir, rfl⟩

end Sys2Proof.Machine

/-! PROOFS. A write transaction and then a read transaction of one word (40_protocol_decoder.md R122): the run in terms of
the commit, and what the commit leaves to be read. -/

namespace Sys2Proof.Machine

open Sys2Proof Sys2Proof.Claims

/-! ### The two transactions (30_encoding.md R80, R91) -/

theorem takes_selAssert (s : State) : Takes s [.selAssert] s := .single (e := .selAssert) rfl (exec_selAssert s)

theorem takes_selDeassert (s : State) : Takes s [.selDeassert] (s.setPhase .idle) :=
  .single (e := .selDeassert) rfl (exec_selDeassert s)

theorem giveDefaults_withTransactionOf (s w : State) (k : Nat) :
    (s.withTransactionOf w).giveDefaults k = (s.giveDefaults k).withTransactionOf w := by
  rw [State.giveDefaults_eq, State.giveDefaults_eq]
  rfl

theorem giveDefaults_add (s : State) (j k : Nat) : (s.giveDefaults j).giveDefaults k = s.giveDefaults (j + k) := by
  induction k with
  | zero => rfl
  | succ k ih => rw [State.giveDefaults, ih]; rfl

/-- A write transaction of one word commits it once, before its last byte's reply, and ends in `Idle`. -/
theorem takes_writeTransaction {s : State} (hidle : s.tState = .idle) (a : Word16) (v : Word32) :
    ∃ w, Takes s (writeTransaction s.cfg a [v])
        ((decoderCommit (s.giveDefaults (3 + earlyBytes a)) a v).answerDefault.withTransactionOf w) ∧ w.tState = .idle := by
  obtain ⟨w, hword, -⟩ := takes_write_word (s := afterHeader s .write a) rfl rfl v
  have hheader : afterHeader s .write a = (s.giveDefaults 3).withTransactionOf (afterHeader s .write a) := by
    rw [State.giveDefaults_eq]
    rfl
  have haddr : (afterHeader s .write a).tAddr = a := rfl
  rw [haddr, hheader, giveDefaults_withTransactionOf, giveDefaults_add, decoderCommit_withTransactionOf, ← hheader] at hword
  have hbody := ((takes_header hidle .write a).append hword).append (takes_selDeassert _)
  refine ⟨w.setPhase .idle, ?_, rfl⟩
  rw [writeTransaction, burstBytes, burstBytes, List.append_nil, transmits_append]
  exact (takes_selAssert s).append hbody

/-- A read transaction of one word observes three header replies and the word, and ends in `Idle`. -/
theorem takes_readTransaction {s : State} (hidle : s.tState = .idle) (a : Word16) :
    ∃ w, Takes s (readTransaction s.cfg a 1)
        (State.withTransactionOf
          { s with trace := s.trace ++ List.replicate 3 (defaultReply s) ++ readObservations s a } w) ∧
      w.tState = .idle := by
  obtain ⟨u, hword⟩ := takes_read_word (s := afterHeader s .read a) rfl rfl
  have haddr : (afterHeader s .read a).tAddr = a := rfl
  have hobs : readObservations (afterHeader s .read a) a = readObservations s a :=
    readObservations_congr rfl rfl rfl rfl a
  rw [haddr, hobs] at hword
  have hbody := ((takes_header hidle .read a).append hword).append (takes_selDeassert _)
  refine ⟨{ afterHeader s .read a with
    tState := .idle, tBuf := u, tAddr := nextAddr (afterHeader s .read a) }, ?_, rfl⟩
  rw [readTransaction, fillerBytes, fillerBytes, List.append_nil, transmits_append]
  exact (takes_selAssert s).append hbody

/-- The two in a row, by what the commit leaves. -/
theorem takes_write_then_read {s : State} (hidle : s.tState = .idle) (a : Word16) (v : Word32) :
    ∃ t, Takes s (writeTransaction s.cfg a [v] ++ readTransaction s.cfg a 1) t ∧ t.tState = .idle ∧
      t.reg = (decoderCommit (s.giveDefaults (3 + earlyBytes a)) a v).reg ∧
      t.mem = (decoderCommit (s.giveDefaults (3 + earlyBytes a)) a v).mem ∧
      t.page = (decoderCommit (s.giveDefaults (3 + earlyBytes a)) a v).page ∧
      t.trace = (decoderCommit (s.giveDefaults (3 + earlyBytes a)) a v).trace ++ List.replicate 4 (defaultReply s) ++
        readObservations (decoderCommit (s.giveDefaults (3 + earlyBytes a)) a v) a := by
  obtain ⟨w, hwrite, hidle'⟩ := takes_writeTransaction hidle a v
  generalize hc : decoderCommit (s.giveDefaults (3 + earlyBytes a)) a v = c at hwrite ⊢
  have hcfg : c.cfg = s.cfg := by rw [← hc, decoderCommit_cfg, State.giveDefaults_eq]
  obtain ⟨w', hread, hidle''⟩ := takes_readTransaction (s := c.answerDefault.withTransactionOf w) hidle' a
  have hboth := hwrite.append hread
  rw [State.withTransactionOf_cfg, State.answerDefault_cfg, hcfg] at hboth
  have hobs : readObservations (c.answerDefault.withTransactionOf w) a = readObservations c a :=
    readObservations_congr rfl rfl rfl rfl a
  have hreplies : c.answerDefault.trace ++ List.replicate 3 (defaultReply c) =
      c.trace ++ List.replicate 4 (defaultReply c) := by
    rw [State.answerDefault_trace, List.append_assoc]
    rfl
  have hdefault : defaultReply c = defaultReply s := by rw [defaultReply, hcfg]; rfl
  refine ⟨_, hboth, hidle'', rfl, rfl, rfl, ?_⟩
  rw [← hdefault, ← hreplies, ← hobs]
  rfl

/-! ### What is left of a memory word (R122 item 1) -/

/-- The place of the word, in the trigger's page, is one the copy writes only within its range. -/
theorem copyRewrites_of_same_place {s : State} {a : Word16} {v : Word32} {p : Page} {q : Place} {i : Nat}
    (htrig : a = trigOf s.cfg p) (hi : i < v.toNat) (hword : resolve s a.toNat .current = some q)
    (hdest : resolve s (pointerWord (memWrite s a.toNat v .current) p + i) (force p) = some q) : copyRewrites s a v := by
  have haddr := addr_eq_of_resolve hword hdest
  have hpage : s.page = p := by
    obtain ⟨-, hcurrent, -⟩ := resolve_some hword
    obtain ⟨-, hforced, -⟩ := resolve_some hdest
    have hforce : pageOf s (force p) = p := by cases p <;> rfl
    exact hcurrent.symm.trans (hforced.trans hforce)
  exact ⟨p, htrig, by omega, hpage, by omega, by omega⟩

/-- The word written is the word read, unless the copy it starts rewrites it. -/
theorem memRead_decoderCommit_same {s : State} {a : Word16} {v : Word32} (hwf : wellFormed s.cfg = true)
    (hmem : Memory.wf s.mem = true) (hmapped : resolve s a.toNat .current ≠ none) (hkept : ¬ copyRewrites s a v) :
    memRead (decoderCommit s a v) a.toNat .current = v := by
  obtain ⟨q, hq⟩ := Option.ne_none_iff_exists'.1 hmapped
  rw [decoderCommit_mem v (classOf_mem.2 (resolve_some hq).1)]
  by_cases htrig : ∃ p, a = trigOf s.cfg p ∧ 1 ≤ v.toNat
  · obtain ⟨p, haddr, hcount⟩ := htrig
    rw [safeloadCheck_of_trigger (p := p) (by simpa using trigA_ne_trigB hwf) (by simpa using haddr) hcount]
    have hplace := resolve_congr (s := s) (t := memWrite s a.toNat v .current) (by simp) (by simp)
    have hother : ∀ i < v.toNat, resolve (memWrite s a.toNat v .current) a.toNat .current ≠
        resolve (memWrite s a.toNat v .current) (pointerWord (memWrite s a.toNat v .current) p + i) (force p) := by
      intro i hi hsame
      rw [hplace, hplace, hq] at hsame
      exact hkept (copyRewrites_of_same_place haddr hi hq hsame.symm)
    rw [memRead_copyLoop_other _ fun i hi => .inr (hother i hi), memRead_memWrite_same v hmem hq]
  · have hno : (a ≠ s.cfg.trigA ∧ a ≠ s.cfg.trigB) ∨ v.toNat = 0 := by
      by_cases hzero : v.toNat = 0
      · exact .inr hzero
      · exact .inl ⟨fun hA => htrig ⟨.A, hA, by omega⟩, fun hB => htrig ⟨.B, hB, by omega⟩⟩
    rw [safeloadCheck_of_not_trigger (by simpa using hno), memRead_memWrite_same v hmem hq]

/-- The memory a commit leaves depends on the parameters, the page and memory alone. -/
theorem decoderCommit_mem_congr {s t : State} (hcfg : t.cfg = s.cfg) (hpage : t.page = s.page) (hmem : t.mem = s.mem)
    (a : Word16) (v : Word32) : (decoderCommit t a v).mem = (decoderCommit s a v).mem := by
  cases hclass : classOf a with
  | ctrl => rw [decoderCommit_ctrl v hclass, decoderCommit_ctrl v hclass, regWrite_mem, regWrite_mem, hmem]
  | mem =>
    rw [decoderCommit_mem v hclass, decoderCommit_mem v hclass]
    exact safeloadCheck_mem_congr (by simpa using hcfg) (by simpa using hpage)
      (memWrite_mem_congr hcfg hpage hmem a.toNat v .current) a v

/-- A commit at a memory-space address changes memory alone. -/
theorem decoderCommit_eq_setMem {s : State} {a : Word16} (v : Word32) (hclass : classOf a = .mem) :
    decoderCommit s a v = s.setMem (decoderCommit s a v).mem := by
  rw [decoderCommit_mem v hclass, safeloadCheck_eq, memWrite_eq]
  rfl

theorem readObservations_of_mapped {s : State} {a : Word16} (hmapped : resolve s a.toNat .current ≠ none) :
    readObservations s a = (wireBytes (memRead s a.toNat .current)).map .reply := by
  obtain ⟨q, hq⟩ := Option.ne_none_iff_exists'.1 hmapped
  have hbound := (resolve_some hq).1
  rw [readObservations, if_neg (by omega), if_neg hmapped, List.nil_append]

/-- Settles O47: seven replies of the write and three of the read's header, and then the word the commit left. -/
theorem memoryWriteThenReadReplies : Obligations.MemoryWriteThenReadReplies := by
  intro s a v hinv hidle hmapped hkept
  obtain ⟨q, hq⟩ := Option.ne_none_iff_exists'.1 hmapped
  have hclass := classOf_mem.2 (resolve_some hq).1
  have hearly : earlyBytes a = 3 := by rw [earlyBytes, hclass]; decide
  have hcommit : decoderCommit (s.giveDefaults 6) a v = (s.giveDefaults 6).setMem (decoderCommit s a v).mem := by
    rw [decoderCommit_eq_setMem v hclass, decoderCommit_mem_congr (s := s) (by simp) (by simp) (by simp)]
  have hobs : readObservations ((s.giveDefaults 6).setMem (decoderCommit s a v).mem) a = (wireBytes v).map .reply := by
    have hafter := readObservations_congr (s := s.setMem (decoderCommit s a v).mem)
      (t := (s.giveDefaults 6).setMem (decoderCommit s a v).mem) (by simp) (by simp) (by simp) (by simp) a
    rw [hafter, readObservations_of_mapped (by exact hmapped), ← decoderCommit_eq_setMem v hclass,
      memRead_decoderCommit_same hinv.wellFormed hinv.memory.1 hmapped hkept]
  obtain ⟨t, htakes, htphase, htreg, -, htpage, httrace⟩ := takes_write_then_read hidle a v
  rw [hearly, hcommit] at htreg htpage httrace
  refine ⟨_, runEvents_of_takes hinv.wellFormed htakes, ?trace, htphase, by simpa using htpage, by simpa using htreg⟩
  case trace =>
    rw [State.setInput_trace, httrace, hobs, State.setMem_trace, State.giveDefaults_trace, List.append_assoc s.trace,
      ← List.replicate_add]

/-! ### What is left of a register (R122 item 2) -/

theorem readObservations_of_lookup {s : State} {a : Word16} {e : RegEntry} (hclass : classOf a = .ctrl)
    (hdecl : lookup s.cfg.regTable a = some e) :
    readObservations s a = [.reply (byteOf (e.synth.getD (regGet s.reg a)).toNat 1),
      .reply (byteOf (e.synth.getD (regGet s.reg a)).toNat 0)] := by
  simp only [readObservations, if_pos (classOf_ctrl.1 hclass), hdecl]

section DeclaredRegister

variable {s : State} {e : RegEntry} (hwf : wellFormed s.cfg = true) (he : e ∈ s.cfg.regTable)
include hwf he

/-- The value a declared register reads as after a write to it (R142, R144, R145). -/
theorem regWrite_readValue (hro : ReadOnlyAtReset s) (v : Word16) :
    e.synth.getD (regGet (regWrite s e.addr v).reg e.addr) = if e.mode = .ro then e.synth.getD e.reset else v := by
  have hdecl := lookup_of_mem_table hwf he
  by_cases hmode : e.mode = .ro
  · rw [if_pos hmode, regWrite_of_ro hdecl v hmode, hro e he hmode]
  · have hstored : (regWrite s e.addr v).reg = regSet s.reg e.addr v := by
      rcases regWrite_cases s e.addr v with ⟨-, hnone | ⟨f, hf, hfmode⟩⟩ | ⟨f, -, -, ⟨hw, -⟩ | ⟨hw, -⟩ | ⟨hw, -⟩⟩
      · rw [hdecl] at hnone; cases hnone
      · rw [hdecl] at hf; cases hf; exact absurd hfmode hmode
      · rw [hw]; rfl
      · rw [hw]; rfl
      · rw [hw]; rfl
    rw [if_neg hmode, hstored, regGet_regSet_same, synth_none_of_writable hwf he hmode]
    rfl

/-- The log of a write to a declared register: the hook's event at a backup-domain register, and nothing elsewhere (R144
to R148). -/
theorem regWrite_trace (v : Word16) :
    (regWrite s e.addr v).trace =
      s.trace ++ if e.tag = some .backupDomain then [.log (.hookBackup e.addr v)] else [] := by
  have hdecl := lookup_of_mem_table hwf he
  have htagged := tag_isSome_iff hwf he
  cases hmode : e.mode with
  | ro =>
    have htag : e.tag = none := by simpa [hmode] using htagged
    rw [regWrite_of_ro hdecl v hmode, htag, if_neg (by simp), List.append_nil]
  | rw =>
    have htag : e.tag = none := by simpa [hmode] using htagged
    rw [regWrite_of_rw hdecl v hmode, htag, if_neg (by simp), List.append_nil]
    rfl
  | rwse =>
    rw [regWrite_of_rwse hdecl v hmode]
    rcases e.tag with _ | _ | _
    · rw [if_neg (by simp), List.append_nil]; rfl
    · rw [if_neg (by simp), List.append_nil]; rfl
    · rw [if_pos rfl]; rfl

end DeclaredRegister

/-- Settles O48: four replies, the hook's log, four more replies, and the value the write left to be read. -/
theorem registerWriteThenReadReplies : Obligations.RegisterWriteThenReadReplies := by
  intro s e v hinv hidle he r
  have hwf := hinv.wellFormed
  have hclass := ctrl_of_mem_table hwf he
  have hearly : earlyBytes e.addr = 1 := by rw [earlyBytes, hclass]; decide
  have hdecl := lookup_of_mem_table hwf he
  obtain ⟨t, htakes, htphase, -, htmem, -, httrace⟩ := takes_write_then_read hidle e.addr (v.setWidth 32)
  have hvalue : (v.setWidth 32).setWidth 16 = v := by simp
  rw [hearly, decoderCommit_ctrl _ hclass, hvalue] at htmem httrace
  have hwf' : wellFormed (s.giveDefaults 4).cfg = true := by simpa using hwf
  have he' : e ∈ (s.giveDefaults 4).cfg.regTable := by simpa using he
  have hro' : ReadOnlyAtReset (s.giveDefaults 4) := by simpa [ReadOnlyAtReset] using hinv.readOnly
  have hobs : readObservations (regWrite (s.giveDefaults 4) e.addr v) e.addr =
      [.reply (byteOf r 1), .reply (byteOf r 0)] := by
    rw [readObservations_of_lookup hclass (by simpa using hdecl), regWrite_readValue hwf' he' hro']
  refine ⟨_, runEvents_of_takes hwf htakes, ?trace, htphase, ?mem⟩
  case trace => rw [State.setInput_trace, httrace, hobs, regWrite_trace hwf' he', State.giveDefaults_trace]
  case mem => rw [State.setInput_mem, htmem, regWrite_mem, State.giveDefaults_mem]

end Sys2Proof.Machine

/-! PROOFS. The stale fields of `T` (10_state.md R31; 40_protocol_decoder.md R122 item 3): two states that agree on the
fields a later byte can still read answer alike, and in `Idle` there is no such field. -/

namespace Sys2Proof.Machine

open Sys2Proof Sys2Proof.Claims

/-- The bytes of `T.buf` that a later byte of the word in progress reads: those a write has taken, and those a read has
still to reply (R106, R108, R112, R114 to R116). -/
def liveBytes (c : Context) (u : Buf) : List Byte :=
  match c with
  | ⟨.data1, .write, _⟩ => [u.b0]
  | ⟨.data2, .write, _⟩ => [u.b0, u.b1]
  | ⟨.data3, .write, _⟩ => [u.b0, u.b1, u.b2]
  | ⟨.data1, .read, .ctrl⟩ => [u.b1]
  | ⟨.data1, .read, .mem⟩ => [u.b1, u.b2, u.b3]
  | ⟨.data2, .read, _⟩ => [u.b2, u.b3]
  | ⟨.data3, .read, _⟩ => [u.b3]
  | _ => []

/-- Two states agree on the fields of `T` that a later byte can read: none in `Idle`, the direction once the chip address
is taken, the high address byte once that is taken, and then the whole address and the word's live bytes. -/
inductive LiveAgrees (s w : State) : Prop
  | idle (hphase : s.tState = .idle)
  | subAddressHigh (hphase : s.tState = .subAddressHigh) (hdir : w.tDir = s.tDir)
  | subAddressLow (hphase : s.tState = .subAddressLow) (hdir : w.tDir = s.tDir)
      (hhigh : w.tAddr.extractLsb' 8 8 = s.tAddr.extractLsb' 8 8)
  | data (hdir : w.tDir = s.tDir) (haddr : w.tAddr = s.tAddr)
      (hbuf : liveBytes (contextOf s) w.tBuf = liveBytes (contextOf s) s.tBuf)

/-- `w` is in the phase of `s`, with the same events to take, and agrees with it on the live fields. -/
structure Follows (s w : State) : Prop where
  phase : w.tState = s.tState
  input : w.input = s.input
  live : LiveAgrees s w

/-- In each phase the decoder looks at fields that are live there (R89). -/
theorem decode_of_follows {s w : State} (h : Follows s w) (e : Event) :
    decode (contextOf (s.withTransactionOf w)) e = decode (contextOf s) e := by
  have hctx : contextOf (s.withTransactionOf w) = ⟨s.tState, w.tDir, classOf w.tAddr⟩ := by
    rw [← h.phase]
    rfl
  rw [hctx, contextOf]
  cases h.live with
  | idle hphase => rw [hphase]; cases e <;> rfl
  | subAddressHigh hphase => rw [hphase]; cases e <;> rfl
  | subAddressLow hphase => rw [hphase]; cases e <;> rfl
  | data hdir haddr => rw [hdir, haddr]

/-! ### The live fields, phase by phase -/

theorem Follows.dir_live {s w : State} (h : Follows s w) (hphase : s.tState ≠ .idle) : w.tDir = s.tDir := by
  cases h.live with
  | idle hidle => exact absurd hidle hphase
  | subAddressHigh _ hdir => exact hdir
  | subAddressLow _ hdir => exact hdir
  | data hdir => exact hdir

theorem Follows.high_live {s w : State} (h : Follows s w) (hphase : s.tState = .subAddressLow) :
    w.tAddr.extractLsb' 8 8 = s.tAddr.extractLsb' 8 8 := by
  cases h.live with
  | idle hidle => rw [hphase] at hidle; cases hidle
  | subAddressHigh hhigh => rw [hphase] at hhigh; cases hhigh
  | subAddressLow _ _ hhigh => exact hhigh
  | data _ haddr => rw [haddr]

/-- In a data phase the direction, the whole address and the word's bytes are live. -/
theorem Follows.data_live {s w : State} {x : DecoderState} {d : Direction} {c : AddrClass} (h : Follows s w)
    (hctx : contextOf s = ⟨x, d, c⟩) (hdata : x ≠ .idle ∧ x ≠ .subAddressHigh ∧ x ≠ .subAddressLow) :
    w.tDir = s.tDir ∧ w.tAddr = s.tAddr ∧ liveBytes ⟨x, d, c⟩ w.tBuf = liveBytes ⟨x, d, c⟩ s.tBuf := by
  obtain ⟨hidle, hhigh, hlow⟩ := hdata
  have hx : s.tState = x := congrArg Context.state hctx
  cases h.live with
  | idle hphase => exact absurd (hx.symm.trans hphase) hidle
  | subAddressHigh hphase => exact absurd (hx.symm.trans hphase) hhigh
  | subAddressLow hphase => exact absurd (hx.symm.trans hphase) hlow
  | data hdir haddr hbuf => rw [hctx] at hbuf; exact ⟨hdir, haddr, hbuf⟩

/-- At the start of a word no byte of `T.buf` is live. -/
theorem liveBytes_data0 (d : Direction) (c : AddrClass) (u : Buf) : liveBytes ⟨.data0, d, c⟩ u = [] := rfl

/-- Agreement at the start of a word is agreement on the direction and the address. -/
theorem follows_of_data0 {t w : State} (hphase : t.tState = .data0) (hphase' : w.tState = .data0)
    (hinput : w.input = t.input) (hdir : w.tDir = t.tDir) (haddr : w.tAddr = t.tAddr) : Follows t w := by
  refine ⟨hphase'.trans hphase.symm, hinput, .data hdir haddr ?_⟩
  rw [contextOf, hphase, liveBytes_data0, liveBytes_data0]

/-- Agreement inside a word, with the context written out. -/
theorem follows_of_context {t w : State} {x : DecoderState} {d : Direction} {c : AddrClass} (hphase : t.tState = x)
    (hd : t.tDir = d) (hc : classOf t.tAddr = c) (hphase' : w.tState = x) (hinput : w.input = t.input)
    (hdir : w.tDir = t.tDir) (haddr : w.tAddr = t.tAddr)
    (hbuf : liveBytes ⟨x, d, c⟩ w.tBuf = liveBytes ⟨x, d, c⟩ t.tBuf) : Follows t w := by
  refine ⟨hphase'.trans hphase.symm, hinput, .data hdir haddr ?_⟩
  rw [contextOf, hphase, hd, hc]
  exact hbuf

/-- In `Idle` nothing is live. -/
theorem follows_of_idle {t w : State} (hphase : t.tState = .idle) (hphase' : w.tState = .idle)
    (hinput : w.input = t.input) : Follows t w :=
  ⟨hphase'.trans hphase.symm, hinput, .idle hphase⟩

/-- What is observed does not touch the live fields. -/
theorem follows_emit {s w : State} (h : Follows s w) (o : Observation) : Follows (s.emit o) w := by
  refine ⟨h.phase, h.input, ?_⟩
  cases h.live with
  | idle hphase => exact .idle hphase
  | subAddressHigh hphase hdir => exact .subAddressHigh hphase hdir
  | subAddressLow hphase hdir hhigh => exact .subAddressLow hphase hdir hhigh
  | data hdir haddr hbuf => exact .data hdir haddr hbuf

theorem withHighByte_high (a : Word16) (b : Byte) : (withHighByte a b).extractLsb' 8 8 = b := by
  have hb := b.isLt
  apply BitVec.eq_of_toNat_eq
  rw [withHighByte_eq_ofNat, BitVec.extractLsb'_toNat, BitVec.toNat_ofNat, Nat.shiftRight_eq_div_pow]
  omega

/-! ### Every instruction, in two states that agree -/

/-- In the transaction of `w` the instruction does the same to what is stored and observed, and leaves the live fields in
agreement. -/
def AnswersAlike (i : Instr) (s w : State) : Prop :=
  ∀ t, exec i s = .next t → ∃ w', exec i (s.withTransactionOf w) = .next (t.withTransactionOf w') ∧ Follows t w'

section Alike

variable {s w : State} (h : Follows s w)
include h

/-- The chip address makes the direction live, which it has just written (R101, R102). -/
theorem chipAddress_follows (b : Byte) (d : Direction) :
    ∃ w', (chipAddress (s.withTransactionOf w) b d).answerDefault =
      (chipAddress s b d).answerDefault.withTransactionOf w' ∧ Follows (chipAddress s b d).answerDefault w' := by
  rw [chipAddress_answerDefault, chipAddress_answerDefault]
  exact ⟨{ w with tDir := d, tState := .subAddressHigh }, rfl, rfl, h.input, .subAddressHigh rfl rfl⟩

theorem headerByte_answersAlike {i : Instr} (hread : i.readIn (contextOf s) = true)
    (hheader : (∃ b, i = .caWr b) ∨ (∃ b, i = .caRd b) ∨ (∃ b, i = .saHi b) ∨ ∃ b, i = .saLo b) :
    AnswersAlike i s w := by
  intro t hexec
  rcases hheader with ⟨b, rfl⟩ | ⟨b, rfl⟩ | ⟨b, rfl⟩ | ⟨b, rfl⟩
  case inl =>
    cases hexec
    obtain ⟨w', hsame, hfollows⟩ := chipAddress_follows h b .write
    exact ⟨w', congrArg Host.Outcome.next hsame, hfollows⟩
  case inr.inl =>
    cases hexec
    obtain ⟨w', hsame, hfollows⟩ := chipAddress_follows h b .read
    exact ⟨w', congrArg Host.Outcome.next hsame, hfollows⟩
  case inr.inr.inl =>
    cases hexec
    have hphase : s.tState = .subAddressHigh := by simpa [Instr.readIn, contextOf] using hread
    refine ⟨(w.setAddr (withHighByte w.tAddr b)).setPhase .subAddressLow, rfl, rfl, h.input,
      .subAddressLow rfl (h.dir_live (by rw [hphase]; decide)) ?_⟩
    exact (withHighByte_high w.tAddr b).trans (withHighByte_high s.tAddr b).symm
  case inr.inr.inr =>
    cases hexec
    have hphase : s.tState = .subAddressLow := by simpa [Instr.readIn, contextOf] using hread
    exact ⟨(w.setAddr (withLowByte w.tAddr b)).setPhase .data0, rfl,
      follows_of_data0 rfl rfl h.input (h.dir_live (by rw [hphase]; decide))
        (congrArg (fun high : Byte => high ++ b) (h.high_live hphase))⟩

/-- A data byte of a write goes to its place in `T.buf`, and the last one commits the word's live bytes. -/
theorem writeByte_answersAlike {x : DecoderState} {c : AddrClass} {i : Instr} {b : Byte}
    (hctx : contextOf s = ⟨x, .write, c⟩) (hrow : decodeByte ⟨x, .write, c⟩ b = .ok i)
    (hdata : x ≠ .idle ∧ x ≠ .subAddressHigh ∧ x ≠ .subAddressLow) : AnswersAlike i s w := by
  intro t hexec
  obtain ⟨hdir, haddr, hbuf⟩ := h.data_live hctx hdata
  obtain ⟨-, hd, hc⟩ := Context.mk.inj hctx
  cases x with
  | idle | subAddressHigh | subAddressLow => simp at hdata
  | data0 =>
    cases c <;> cases hrow <;> cases hexec
    · exact ⟨(w.setBuf { w.tBuf with b0 := b }).setPhase .data1, rfl,
        follows_of_context rfl hd hc rfl h.input hdir haddr rfl⟩
    · exact ⟨(w.setBuf { w.tBuf with b0 := b }).setPhase .data1, rfl,
        follows_of_context rfl hd hc rfl h.input hdir haddr rfl⟩
  | data1 =>
    have hb0 : w.tBuf.b0 = s.tBuf.b0 := by simpa [liveBytes] using hbuf
    cases c with
    | ctrl =>
      obtain rfl : Instr.wr16D1 b = i := Except.ok.inj hrow
      cases (exec_wr16D1_withTransactionOf s s b).symm.trans hexec
      refine ⟨endWord (w.setBuf { w.tBuf with b1 := b }), ?_,
        follows_of_data0 rfl rfl h.input hdir (congrArg (fun a : Word16 => a + 1) haddr)⟩
      rw [exec_wr16D1_withTransactionOf, haddr, hb0]
      rfl
    | mem =>
      cases hrow
      cases hexec
      exact ⟨(w.setBuf { w.tBuf with b1 := b }).setPhase .data2, rfl,
        follows_of_context rfl hd hc rfl h.input hdir haddr (by simpa [liveBytes] using hb0)⟩
  | data2 =>
    cases c <;> cases hrow
    cases hexec
    exact ⟨(w.setBuf { w.tBuf with b2 := b }).setPhase .data3, rfl,
      follows_of_context rfl hd hc rfl h.input hdir haddr (by simpa [liveBytes] using hbuf)⟩
  | data3 =>
    cases c with
    | ctrl => cases hrow
    | mem =>
      obtain rfl : Instr.wr32D3 b = i := Except.ok.inj hrow
      obtain ⟨hb0, hb1, hb2⟩ : w.tBuf.b0 = s.tBuf.b0 ∧ w.tBuf.b1 = s.tBuf.b1 ∧ w.tBuf.b2 = s.tBuf.b2 := by
        simpa [liveBytes] using hbuf
      cases (exec_wr32D3_withTransactionOf s s b).symm.trans hexec
      refine ⟨endWord (w.setBuf { w.tBuf with b3 := b }), ?_,
        follows_of_data0 rfl rfl h.input hdir (congrArg (fun a : Word16 => a + 1) haddr)⟩
      rw [exec_wr32D3_withTransactionOf, haddr, hb0, hb1, hb2]
      rfl

/-- The first byte of a read fetches the word of the live address, and the others reply the word's live bytes. -/
theorem readByte_answersAlike {x : DecoderState} {c : AddrClass} {i : Instr} {b : Byte}
    (hctx : contextOf s = ⟨x, .read, c⟩) (hrow : decodeByte ⟨x, .read, c⟩ b = .ok i)
    (hdata : x ≠ .idle ∧ x ≠ .subAddressHigh ∧ x ≠ .subAddressLow) : AnswersAlike i s w := by
  intro t hexec
  obtain ⟨hdir, haddr, hbuf⟩ := h.data_live hctx hdata
  obtain ⟨-, hd, hc⟩ := Context.mk.inj hctx
  cases x with
  | idle | subAddressHigh | subAddressLow => simp at hdata
  | data0 =>
    cases c with
    | ctrl =>
      obtain rfl : Instr.rd16D0 b = i := Except.ok.inj hrow
      have hfetch := exec_rd16D0_withTransactionOf s s b
      generalize hv : bytesOf16 ((decoderRead s s.tAddr).1.setWidth 16) = v at hfetch
      cases hfetch.symm.trans hexec
      refine ⟨(w.setBuf { w.tBuf with b0 := v.1, b1 := v.2 }).setPhase .data1, ?_,
        follows_of_context rfl hd hc rfl h.input hdir haddr rfl⟩
      rw [exec_rd16D0_withTransactionOf, haddr, hv]
      rfl
    | mem =>
      obtain rfl : Instr.rd32D0 b = i := Except.ok.inj hrow
      cases (exec_rd32D0_withTransactionOf s s b).symm.trans hexec
      refine ⟨(w.setBuf (bytesOf32 (decoderRead s s.tAddr).1)).setPhase .data1, ?_,
        follows_of_context rfl hd hc rfl h.input hdir haddr rfl⟩
      rw [exec_rd32D0_withTransactionOf, haddr]
      rfl
  | data1 =>
    cases c with
    | ctrl =>
      have hb1 : w.tBuf.b1 = s.tBuf.b1 := by simpa [liveBytes] using hbuf
      cases hrow
      cases hexec
      refine ⟨endWord w, ?_, follows_of_data0 rfl rfl h.input hdir (congrArg (fun a : Word16 => a + 1) haddr)⟩
      exact congrArg (fun r => Host.Outcome.next ((endWord (s.withTransactionOf w)).answer r)) hb1
    | mem =>
      obtain ⟨hb1, hb2, hb3⟩ : w.tBuf.b1 = s.tBuf.b1 ∧ w.tBuf.b2 = s.tBuf.b2 ∧ w.tBuf.b3 = s.tBuf.b3 := by
        simpa [liveBytes] using hbuf
      cases hrow
      cases hexec
      refine ⟨w.setPhase .data2, ?_, follows_of_context rfl hd hc rfl h.input hdir haddr ?_⟩
      · exact congrArg (fun r => Host.Outcome.next (((s.withTransactionOf w).setPhase .data2).answer r)) hb1
      · simp [liveBytes, hb2, hb3]
  | data2 =>
    cases c <;> cases hrow
    obtain ⟨hb2, hb3⟩ : w.tBuf.b2 = s.tBuf.b2 ∧ w.tBuf.b3 = s.tBuf.b3 := by simpa [liveBytes] using hbuf
    cases hexec
    refine ⟨w.setPhase .data3, ?_, follows_of_context rfl hd hc rfl h.input hdir haddr ?_⟩
    · exact congrArg (fun r => Host.Outcome.next (((s.withTransactionOf w).setPhase .data3).answer r)) hb2
    · simp [liveBytes, hb3]
  | data3 =>
    cases c <;> cases hrow
    have hb3 : w.tBuf.b3 = s.tBuf.b3 := by simpa [liveBytes] using hbuf
    cases hexec
    refine ⟨endWord w, ?_, follows_of_data0 rfl rfl h.input hdir (congrArg (fun a : Word16 => a + 1) haddr)⟩
    exact congrArg (fun r => Host.Outcome.next ((endWord (s.withTransactionOf w)).answer r)) hb3

/-- Every instruction, by the event it is read from. -/
theorem exec_answersAlike {e : Event} {i : Instr} (hdec : decode (contextOf s) e = .ok i) : AnswersAlike i s w := by
  cases e with
  | transmit b =>
    have hrow : decodeByte (contextOf s) b = .ok i := hdec
    obtain ⟨-, -, hread⟩ := Laws.DecodeSound.decode_sound i _ _ hdec
    rcases hctx : contextOf s with ⟨x, d, c⟩
    rw [hctx] at hrow
    cases x with
    | idle =>
      refine headerByte_answersAlike h hread ?_
      have hi := Except.ok.inj hrow
      split at hi <;> subst hi <;> simp
    | subAddressHigh => cases hrow; exact headerByte_answersAlike h hread (by simp)
    | subAddressLow => cases hrow; exact headerByte_answersAlike h hread (by simp)
    | data0 | data1 | data2 | data3 =>
      cases d with
      | write => exact writeByte_answersAlike h hctx hrow (by decide)
      | read => exact readByte_answersAlike h hctx hrow (by decide)
  | selAssert =>
    cases hdec
    rintro t ⟨⟩
    exact ⟨w, rfl, h⟩
  | selDeassert =>
    cases hdec
    rintro t ⟨⟩
    exact ⟨w.setPhase .idle, rfl, follows_of_idle rfl rfl h.input⟩
  | reset =>
    cases hdec
    intro t hexec
    rw [exec_reset_eq] at hexec
    cases hexec
    exact ⟨w.setPhase .idle, exec_reset_eq _, follows_of_idle rfl rfl h.input⟩
  | bulkRead start count page sink =>
    cases hdec
    intro t hexec
    rw [exec_bulkRead] at hexec
    cases hexec
    refine ⟨w, ?_, follows_emit h _⟩
    rw [exec_bulkRead, bulkResult_withTransactionOf]
    rfl
  | regExport sink =>
    cases hdec
    intro t hexec
    rw [exec_regExport] at hexec
    cases hexec
    refine ⟨w, ?_, follows_emit h _⟩
    rw [exec_regExport, tableResult_withTransactionOf]
    rfl

/-! ### Steps and runs -/

theorem step_answersAlike {t : State} (hstep : step s = .next t) :
    ∃ w', step (s.withTransactionOf w) = .next (t.withTransactionOf w') ∧ Follows t w' := by
  obtain ⟨hwf, ⟨hin, rfl⟩ | ⟨e, rest, i, hin, hdec, hexec⟩⟩ := step_cases hstep
  · exact ⟨w, step_of_input_nil hwf (h.input.trans hin), h⟩
  · have hrest : Follows (s.setInput rest) (w.setInput rest) := by
      refine ⟨h.phase, rfl, ?_⟩
      cases h.live with
      | idle hphase => exact .idle hphase
      | subAddressHigh hphase hdir => exact .subAddressHigh hphase hdir
      | subAddressLow hphase hdir hhigh => exact .subAddressLow hphase hdir hhigh
      | data hdir haddr hbuf => exact .data hdir haddr hbuf
    obtain ⟨w', hexec', hfollows⟩ := exec_answersAlike hrest (e := e) hdec t hexec
    have hdec' := (decode_of_follows h e).trans hdec
    exact ⟨w', (step_of_decode (s := s.withTransactionOf w) hwf (h.input.trans hin) hdec').trans hexec', hfollows⟩

end Alike

/-- A run of `n + 1` steps is a step and a run of `n`. -/
theorem stepN_succ_eq_next_iff {n : Nat} {s t : State} :
    stepN (n + 1) s = .next t ↔ ∃ u, step s = .next u ∧ stepN n u = .next t := by
  rw [stepN]
  cases step s <;> simp

theorem stepN_answersAlike {n : Nat} {s w t : State} (h : Follows s w) (hrun : stepN n s = .next t) :
    ∃ w', stepN n (s.withTransactionOf w) = .next (t.withTransactionOf w') ∧ Follows t w' := by
  induction n generalizing s w with
  | zero => cases hrun; exact ⟨w, rfl, h⟩
  | succ n ih =>
    obtain ⟨u, hstep, hrest⟩ := stepN_succ_eq_next_iff.1 hrun
    obtain ⟨w₁, hstep', hfollows⟩ := step_answersAlike h hstep
    obtain ⟨w₂, hrest', hfollows'⟩ := ih hfollows hrest
    exact ⟨w₂, stepN_succ_eq_next_iff.2 ⟨_, hstep', hrest'⟩, hfollows'⟩

theorem eq_withTransactionOf_of_same {s s' : State} (h : SameButTransaction s s') : s' = s.withTransactionOf s' := by
  obtain ⟨hcfg, -, hreg, hmem, hpage, -, htrace⟩ := h
  cases s'
  cases hcfg; cases hreg; cases hmem; cases hpage; cases htrace
  rfl

/-- Settles O46: in `Idle` no field of `T` is live, and every step keeps the agreement on those that are. -/
theorem idleHidesTransactionFields : Obligations.IdleHidesTransactionFields := by
  intro s s' n t hsame hidle hrun
  obtain ⟨-, hphase, -, -, -, hinput, -⟩ := id hsame
  obtain ⟨w', hrun', hfollows⟩ := stepN_answersAlike (w := s') ⟨hphase, hinput, .idle hidle⟩ hrun
  rw [← eq_withTransactionOf_of_same hsame] at hrun'
  exact ⟨_, hrun', rfl, rfl, rfl, rfl, hfollows.phase⟩

end Sys2Proof.Machine
